-- ==== Sys2Proof/Word.lean ====
section
/-! DEFINITION. The word types of CRCFOLD. Every value of this hardware is an unsigned integer and
nothing in it is signed (00_scope.md R14, R19). -/

namespace Sys2Proof

/-- A 64-bit word: ARG, a table entry, and the registers CRC, TBLLEN, RESULT and STATUS
(00_scope.md R12). -/
abbrev Word := BitVec 64

/-- A data byte (the field BYTE of FEED) or a table index (the field IDX of TWR): 30_encoding.md R64. -/
abbrev Byte := BitVec 8

end Sys2Proof
end

