-- ==== Sys2Proof/Config.lean ====
section
/-! DEFINITION. What this hardware fixes once for all: 00_scope.md R11 and R12. Nothing here is a
parameter or a free value: R154 asks a model to fix the containers in its definitions, and the only
open parameter of the spec, TABLE_BYTE_ORDER, lies outside the core (R13). -/

namespace Sys2Proof.Config

/-- The number of entries of the table RAM, for every width (00_scope.md R11, 20_memory.md R40). -/
def tableEntries : Nat := 256

/-- The entry count START requires in TBLLEN, for every width (41_fold.md R102, 90_conflicts.md C7). -/
def requiredLength : Word := 256#64

end Sys2Proof.Config
end

