-- ==== Sys2Proof/Syntax.lean ====
section
/-! DEFINITION. The abstract terms: variants, the sixteen commands, the raw command the host presents,
the host's actions, and the assembly language of 30_encoding.md R73 and R74. -/

namespace Sys2Proof

/-- The direction of a fold (00_scope.md R2, R18): normal is MSB-first, reflected is LSB-first. -/
inductive Dir where
  | normal
  | reflected
deriving DecidableEq, Repr

/-- The five widths W of 00_scope.md R11. -/
inductive Width where
  | w8
  | w16
  | w24
  | w32
  | w64
deriving DecidableEq, Repr

/-- One of the ten variants: a direction and a width (00_scope.md R2). -/
structure Variant where
  dir : Dir
  width : Width
deriving DecidableEq, Repr

/-- The sixteen commands of 30_encoding.md R67, one constructor for each row of the opcode table.
A command that uses ARG carries it (R65); one that ignores ARG does not (R60). Every field has exactly
the width its encoding gives it, so every term is a command of the hardware. -/
inductive Instr where
  /-- NOP, 42_housekeeping.md R120. -/
  | nop
  /-- TWR: `idx` is CMD[7:0], `value` is ARG. 40_table_setup.md R80. -/
  | twr (idx : Byte) (value : Word)
  /-- TLEN: `count` is ARG. 40_table_setup.md R81. -/
  | tlen (count : Word)
  /-- START.N8, 41_fold.md R92 and R102; `init` is ARG, as in the nine that follow. -/
  | startN8 (init : Word)
  /-- START.N16, R93. -/
  | startN16 (init : Word)
  /-- START.N24, R94. -/
  | startN24 (init : Word)
  /-- START.N32, R95. -/
  | startN32 (init : Word)
  /-- START.N64, R96. -/
  | startN64 (init : Word)
  /-- START.R8, R97. -/
  | startR8 (init : Word)
  /-- START.R16, R98. -/
  | startR16 (init : Word)
  /-- START.R24, R99. -/
  | startR24 (init : Word)
  /-- START.R32, R100. -/
  | startR32 (init : Word)
  /-- START.R64, R101. -/
  | startR64 (init : Word)
  /-- FEED: `byte` is CMD[7:0]. 41_fold.md R103. -/
  | feed (byte : Byte)
  /-- FINISH, 41_fold.md R104. -/
  | finish
  /-- CLRERR, 42_housekeeping.md R121. -/
  | clrerr
deriving DecidableEq, Repr

/-- What the host presents in one transaction: the command word CMD and the operand word ARG
(30_encoding.md R60). Any pair of values may be presented. -/
structure Command where
  cmd : BitVec 16
  arg : Word
deriving DecidableEq, Repr

/-- What the outside world does to the engine. A run is a sequence of commands and read-port reads
(70_reset_and_hazards.md R162); a reset is the launch of the next run (R150). -/
inductive HostAction where
  /-- One transaction on the command port. -/
  | command (c : Command)
  /-- One read of the read port at a 4-bit register address (10_state.md R30). -/
  | read (addr : BitVec 4)
  /-- The block's one reset (70_reset_and_hazards.md R150). -/
  | reset
deriving DecidableEq, Repr

/-- The four registers the assembler's `read REG` can name (30_encoding.md R74). -/
inductive PortReg where
  | status
  | result
  | tbllen
  | cfg
deriving DecidableEq, Repr

/-- One line of assembly, after its text is read: the forms of 30_encoding.md R73 and the
pseudo-instructions of R74. Operands are the numbers as written, so they can be out of range. -/
inductive Source where
  | nop
  | twr (idx value : Nat)
  | tlen (count : Nat)
  | start (v : Variant) (init : Nat)
  | feed (byte : Nat)
  | finish
  | clrerr
  /-- `.word cmd, arg`: a raw command. -/
  | word (cmd arg : Nat)
  /-- `feeds`: one FEED for each byte, first one first. -/
  | feeds (data : List Nat)
  /-- `ldtable T`: the 256 entries of T, then `tlen 256`. -/
  | ldtable (entries : List Nat)
  /-- `fold.<v> init, data`. -/
  | fold (v : Variant) (init : Nat) (data : List Nat)
  /-- `read REG`: one read-port read, not a command. -/
  | read (reg : PortReg)
deriving DecidableEq, Repr

end Sys2Proof
end

