-- ==== Sys2Proof/WellFormed.lean ====
section
/-! DEFINITION. The checks on what software writes: the reserved encodings of 30_encoding.md R69 and
R70 on a raw command word, field by field and without the opcode map of R67, and the operand ranges
the assembler checks (R73). A term of `Instr` needs no check: its fields have the encoding's widths. -/

namespace Sys2Proof

/-- OPC = CMD[15:12] is one of 0x0 to 0x6 (30_encoding.md R62). -/
def Command.opcodeAssigned (c : Command) : Bool := (c.cmd.extractLsb' 12 4).toNat ≤ 6

/-- The reserved bits CMD[11:8] of every command, CMD[7:0] of NOP, TLEN, FINISH and CLRERR, and
CMD[7:4] of START are 0 (30_encoding.md R69). -/
def Command.reservedBitsClear (c : Command) : Bool :=
  c.cmd.extractLsb' 8 4 == 0#4 &&
  match (c.cmd.extractLsb' 12 4).toNat with
  | 0 | 2 | 5 | 6 => c.cmd.extractLsb' 0 8 == 0#8
  | 3 => c.cmd.extractLsb' 4 4 == 0#4
  | _ => true

/-- In START, WCODE = CMD[2:0] is none of the reserved codes 0b101, 0b110, 0b111
(30_encoding.md R66). -/
def Command.widthAssigned (c : Command) : Bool :=
  (c.cmd.extractLsb' 12 4).toNat != 3 || decide ((c.cmd.extractLsb' 0 3).toNat ≤ 4)

/-- No clause of 30_encoding.md R70 makes the command illegal. ARG plays no part. -/
def Command.wellFormed (c : Command) : Bool :=
  c.opcodeAssigned && c.reservedBitsClear && c.widthAssigned

/-- A table index or a data byte the assembler accepts: 0 to 255 (30_encoding.md R73). -/
def byteInRange (n : Nat) : Bool := decide (n < 256)

/-- A value the assembler accepts: 0 to 2^64-1 (30_encoding.md R73). -/
def valueInRange (n : Nat) : Bool := decide (n < 2 ^ 64)

/-- The assembler's operand checks (30_encoding.md R73). A `.word` must name a 16-bit CMD (R60), and an
`ldtable` a table of 256 entries (R74). -/
def Source.wellFormed : Source → Bool
  | .nop | .finish | .clrerr | .read _ => true
  | .twr idx value => byteInRange idx && valueInRange value
  | .tlen count => valueInRange count
  | .start _ init => valueInRange init
  | .feed byte => byteInRange byte
  | .word cmd arg => decide (cmd < 2 ^ 16) && valueInRange arg
  | .feeds data => data.all byteInRange
  | .ldtable entries => entries.length == Config.tableEntries && entries.all valueInRange
  | .fold _ init data => valueInRange init && data.all byteInRange

end Sys2Proof
end

