-- ==== Sys2Proof/Decode.lean ====
section
/-! DEFINITION. The command encoding: the opcode map of 30_encoding.md R67 as a table of rows, the
decoder of R68 over it, and the encoder of R66 and R73. -/

namespace Sys2Proof

/-- One row of the opcode map of 30_encoding.md R67: its match, its mask, and the command it names,
built from CMD and ARG. -/
structure Row where
  pattern : BitVec 16
  mask : BitVec 16
  build : BitVec 16 → Word → Instr

/-- What the decoder answers: the command of a row, or ILLEGAL (30_encoding.md R68). -/
inductive Decoded where
  | row (i : Instr)
  | illegal
deriving DecidableEq, Repr

/-- The field CMD[7:0]: IDX in TWR and BYTE in FEED, neither scaled nor extended (30_encoding.md R64). -/
def lowByte (cmd : BitVec 16) : Byte := cmd.extractLsb' 0 8

/-- The opcode map, in the order of 30_encoding.md R67. -/
def rows : List Row :=
  [ ⟨0x0000#16, 0xFFFF#16, fun _ _ => .nop⟩,
    ⟨0x1000#16, 0xFF00#16, fun cmd arg => .twr (lowByte cmd) arg⟩,
    ⟨0x2000#16, 0xFFFF#16, fun _ arg => .tlen arg⟩,
    ⟨0x3000#16, 0xFFFF#16, fun _ arg => .startN8 arg⟩,
    ⟨0x3001#16, 0xFFFF#16, fun _ arg => .startN16 arg⟩,
    ⟨0x3002#16, 0xFFFF#16, fun _ arg => .startN24 arg⟩,
    ⟨0x3003#16, 0xFFFF#16, fun _ arg => .startN32 arg⟩,
    ⟨0x3004#16, 0xFFFF#16, fun _ arg => .startN64 arg⟩,
    ⟨0x3008#16, 0xFFFF#16, fun _ arg => .startR8 arg⟩,
    ⟨0x3009#16, 0xFFFF#16, fun _ arg => .startR16 arg⟩,
    ⟨0x300A#16, 0xFFFF#16, fun _ arg => .startR24 arg⟩,
    ⟨0x300B#16, 0xFFFF#16, fun _ arg => .startR32 arg⟩,
    ⟨0x300C#16, 0xFFFF#16, fun _ arg => .startR64 arg⟩,
    ⟨0x4000#16, 0xFF00#16, fun cmd _ => .feed (lowByte cmd)⟩,
    ⟨0x5000#16, 0xFFFF#16, fun _ _ => .finish⟩,
    ⟨0x6000#16, 0xFFFF#16, fun _ _ => .clrerr⟩ ]

/-- A command matches a row when `CMD AND mask = match` (30_encoding.md R67). -/
def Row.accepts (r : Row) (cmd : BitVec 16) : Bool := cmd &&& r.mask == r.pattern

/-- The loop of 30_encoding.md R68: the first row that matches, else ILLEGAL. -/
def decodeWith : List Row → Command → Decoded
  | [], _ => .illegal
  | r :: rest, c => if r.accepts c.cmd then .row (r.build c.cmd c.arg) else decodeWith rest c

/-- The decoder, total on any command (30_encoding.md R68). -/
def decode (c : Command) : Decoded := decodeWith rows c

/-- The START command of a variant, with its operand (30_encoding.md R66). -/
def startOf (v : Variant) (init : Word) : Instr :=
  match v.dir, v.width with
  | .normal, .w8 => .startN8 init
  | .normal, .w16 => .startN16 init
  | .normal, .w24 => .startN24 init
  | .normal, .w32 => .startN32 init
  | .normal, .w64 => .startN64 init
  | .reflected, .w8 => .startR8 init
  | .reflected, .w16 => .startR16 init
  | .reflected, .w24 => .startR24 init
  | .reflected, .w32 => .startR32 init
  | .reflected, .w64 => .startR64 init

/-- The words of a command (30_encoding.md R66 and R73). Where ARG is ignored, 0 is written. -/
def encode : Instr → Command
  | .nop => ⟨0x0000#16, 0⟩
  | .twr idx value => ⟨0x1000#16 ||| idx.setWidth 16, value⟩
  | .tlen count => ⟨0x2000#16, count⟩
  | .startN8 init => ⟨0x3000#16, init⟩
  | .startN16 init => ⟨0x3001#16, init⟩
  | .startN24 init => ⟨0x3002#16, init⟩
  | .startN32 init => ⟨0x3003#16, init⟩
  | .startN64 init => ⟨0x3004#16, init⟩
  | .startR8 init => ⟨0x3008#16, init⟩
  | .startR16 init => ⟨0x3009#16, init⟩
  | .startR24 init => ⟨0x300A#16, init⟩
  | .startR32 init => ⟨0x300B#16, init⟩
  | .startR64 init => ⟨0x300C#16, init⟩
  | .feed byte => ⟨0x4000#16 ||| byte.setWidth 16, 0⟩
  | .finish => ⟨0x5000#16, 0⟩
  | .clrerr => ⟨0x6000#16, 0⟩

/-- The command whose bits are the low `nbits` bits of `w`, as the opcode table numbers them: CMD is
bits 15..0 and ARG is bits 79..16. The port takes both words whole, so no byte order enters
(20_memory.md R47). -/
def commandOfBits (nbits w : Nat) : Command :=
  let bits := w % 2 ^ nbits
  ⟨BitVec.ofNat 16 bits, BitVec.ofNat 64 (bits / 2 ^ 16)⟩

/-- The command the decoder reads from the bits of an opcode-table row. -/
def decodeTableWord (nbits w : Nat) : Option Instr :=
  match decode (commandOfBits nbits w) with
  | .row i => some i
  | .illegal => none

end Sys2Proof
end

