-- ==== Sys2Proof/Machine/State.lean ====
section
/-! DEFINITION. The state of one CRCFOLD block as plain data, the reasons a step can stop, and the
state after reset (10_state.md, 20_memory.md section 1, 70_reset_and_hazards.md R150). -/

namespace Sys2Proof.Machine

/-- The outcome codes of STATUS.ERR (10_state.md R28). Codes 0x7 to 0xF are reserved and have no name. -/
inductive ErrCode where
  /-- 0x0, the command was accepted. -/
  | ok
  /-- 0x1, START with TBLLEN ≠ 256 (60_exceptions.md R126). -/
  | invalidTable
  /-- 0x2, reserved for the host adapter: the core never writes it (60_exceptions.md R128). -/
  | typeMismatch
  /-- 0x3, reserved for the host adapter: the core never writes it (60_exceptions.md R128). -/
  | bufferShape
  /-- 0x4, a command in the wrong phase (60_exceptions.md R132). -/
  | sequence
  /-- 0x5, TWR or TLEN during a fold (60_exceptions.md R133). -/
  | locked
  /-- 0x6, a CMD that matches no row (60_exceptions.md R134). -/
  | illegal
deriving DecidableEq, Repr

/-- The table RAM (20_memory.md R40): a list of (index, 64-bit entry) pairs with the indices rising.
An entry is listed exactly when TWR has written it since reset, so the list is also the written-bit
per entry that R43 asks for. -/
abbrev Memory := List (Nat × Word)

/-- Every piece of state the spec gives the block (10_state.md), and at the end two fields that are the
model's own: what the host still has to do, and what its reads have returned. -/
structure State where
  /-- CRC, the running register: 64 physical bits, of which the low C(W) are live (R20 to R22). -/
  crc : Word
  /-- CFG.DIR and CFG.WCODE: the variant of the current or most recent fold (R23). -/
  cfg : Variant
  /-- ACTIVE: a fold is in progress (R24). -/
  active : Bool
  /-- TBLLEN: the declared entry count (R25). -/
  tbllen : Word
  /-- RESULT: what the last accepted FINISH published (R26). -/
  result : Word
  /-- STATUS.ERR: the outcome of the most recent command (R28). -/
  err : BitVec 4
  /-- STATUS.STICKY: a command was rejected since reset or the last CLRERR (R29). -/
  sticky : Bool
  /-- TABLE: the table RAM (20_memory.md R40). -/
  table : Memory
  /-- The model's own: the host's actions still to come, in issue order (R37: the host's command
  sequence is an input of the model). -/
  pending : List HostAction
  /-- The model's own: the values the read port has returned, oldest first (70_reset_and_hazards.md
  R162: what a run shows). -/
  reads : List Word
deriving DecidableEq, Repr

/-- Why the machine stops with a fault. -/
inductive Fault where
  /-- Raised by FEED alone, when the entry its index names was not written by TWR since reset
  (20_memory.md R43, 93_implementation_defined.md I1). SAFE: the hardware goes on with a value no rule
  gives, and the model claims nothing. -/
  | unwrittenEntry (index : Byte)
deriving DecidableEq, Repr

/-- Why the model has no meaning for a command. -/
inductive Refusal where
  /-- Raised by an arm of `exec` whose command has no meaning yet. No arm is left so. SAFE: a refused
  command proves nothing about the hardware. -/
  | notModelled (mnemonic : String)
deriving DecidableEq, Repr

/-- The state right after reset (10_state.md R36): every register 0, variant N8, IDLE, and no table
entry written. The host has issued nothing yet. -/
def State.reset : State where
  crc := 0
  cfg := ⟨.normal, .w8⟩
  active := false
  tbllen := 0
  result := 0
  err := 0
  sticky := false
  table := []
  pending := []
  reads := []

end Sys2Proof.Machine
end

