-- ==== Sys2Proof/Machine/Flags.lean ====
section
/-! DEFINITION. The flags and the words they are read as: the error codes and the layout of STATUS
(10_state.md R27, R28), and the codes and the layout of CFG (R23, R30, 30_encoding.md R66). The fold
itself computes no carry, zero or overflow flag (10_state.md R34). -/

namespace Sys2Proof.Machine

/-- The 4-bit code of an outcome (10_state.md R28). -/
def ErrCode.bits : ErrCode → BitVec 4
  | .ok => 0x0
  | .invalidTable => 0x1
  | .typeMismatch => 0x2
  | .bufferShape => 0x3
  | .sequence => 0x4
  | .locked => 0x5
  | .illegal => 0x6

/-- STATUS: bit 0 ACTIVE, bits [7:4] ERR, bit 8 STICKY, all others 0 (10_state.md R27). -/
def statusWord (s : State) : Word :=
  0#55 ++ BitVec.ofBool s.sticky ++ s.err ++ 0#3 ++ BitVec.ofBool s.active

/-- CFG.DIR: 0 is normal and 1 is reflected (10_state.md R23). -/
def dirBit : Dir → BitVec 1
  | .normal => 0
  | .reflected => 1

/-- CFG.WCODE: the width code (30_encoding.md R66). -/
def wcode : Width → BitVec 3
  | .w8 => 0b000
  | .w16 => 0b001
  | .w24 => 0b010
  | .w32 => 0b011
  | .w64 => 0b100

/-- CFG as the host reads it: bits [2:0] WCODE, bit 3 DIR, bits [63:4] 0 (10_state.md R30). -/
def cfgWord (v : Variant) : Word := 0#60 ++ dirBit v.dir ++ wcode v.width

end Sys2Proof.Machine
end

