-- ==== Sys2Proof/Machine/Operands.lean ====
section
/-! DEFINITION. The datapath: the policy row of each variant (41_fold.md R85) and the generic functions
over it, `init_V`, `step_V` and `fin_V` (00_scope.md R17, 41_fold.md R86 to R101). -/

namespace Sys2Proof.Machine

/-- `trunc_n(v)`, the low n bits of v (00_scope.md R15). -/
def trunc (n : Nat) (v : Word) : Word := (v.setWidth n).setWidth 64

/-- The 24-bit mask 0xFFFFFF of 41_fold.md R90 and R91. -/
def mask24 : Word := 0xFFFFFF#64

/-- One row of the policy table of 41_fold.md R85. `extractLow` is the lowest bit of the extracted
byte, `shift` the direction of the 8-bit shift, and a mask is absent where the table says none. -/
structure Policy where
  width : Nat
  container : Nat
  extractLow : Nat
  shift : Dir
  preMask : Option Word
  postMask : Option Word
deriving DecidableEq, Repr

/-- The policy table of 41_fold.md R85. -/
def policy : Variant → Policy
  | ⟨.normal, .w8⟩ => ⟨8, 8, 0, .normal, none, none⟩
  | ⟨.normal, .w16⟩ => ⟨16, 16, 8, .normal, none, none⟩
  | ⟨.normal, .w24⟩ => ⟨24, 32, 16, .normal, none, some mask24⟩
  | ⟨.normal, .w32⟩ => ⟨32, 32, 24, .normal, none, none⟩
  | ⟨.normal, .w64⟩ => ⟨64, 64, 56, .normal, none, none⟩
  | ⟨.reflected, .w8⟩ => ⟨8, 8, 0, .reflected, none, none⟩
  | ⟨.reflected, .w16⟩ => ⟨16, 16, 0, .reflected, none, none⟩
  | ⟨.reflected, .w24⟩ => ⟨24, 32, 0, .reflected, some mask24, none⟩
  | ⟨.reflected, .w32⟩ => ⟨32, 32, 0, .reflected, none, none⟩
  | ⟨.reflected, .w64⟩ => ⟨64, 64, 0, .reflected, none, none⟩

/-- The container width C(W) of a variant (00_scope.md R11). -/
def container (v : Variant) : Nat := (policy v).container

/-- A mask where the policy row has one (41_fold.md R85). -/
def applyMask : Option Word → Word → Word
  | none, r => r
  | some m, r => r &&& m

/-- The extracted byte: `top_byte(r)` in the normal direction and `bottom_byte(r)` in the reflected one
(41_fold.md R86, R87). -/
def extractedByte (v : Variant) (r : Word) : Byte := (r >>> (policy v).extractLow).setWidth 8

/-- The table index of one step: `b XOR` the extracted byte (41_fold.md R88, R89). -/
def tableIndex (v : Variant) (r : Word) (b : Byte) : Byte := b ^^^ extractedByte v r

/-- The register shifted by one byte: `trunc_C(r << 8)`, or the logical `r >> 8` (41_fold.md R88, R89). -/
def shifted (v : Variant) (r : Word) : Word :=
  match (policy v).shift with
  | .normal => trunc (container v) (r <<< 8)
  | .reflected => r >>> 8

/-- `init_V(a)` (41_fold.md R92 to R101): the container's bits of ARG, and for R24 the pre-loop mask. -/
def initV (v : Variant) (a : Word) : Word := applyMask (policy v).preMask (trunc (container v) a)

/-- `step_V` once the table entry is read: `trunc_C(entry) XOR` the shifted register, with no mask
(41_fold.md R88, R89, R91). -/
def stepV (v : Variant) (entry r : Word) : Word := trunc (container v) entry ^^^ shifted v r

/-- `fin_V(r)` (41_fold.md R92 to R101): the register, and for N24 the post-loop mask (R90). -/
def finV (v : Variant) (r : Word) : Word := applyMask (policy v).postMask r

end Sys2Proof.Machine
end

