-- ==== Sys2Proof/Machine/Ops.lean ====
section
/-! DEFINITION. The named operations over the state: the table RAM, the two ways a command ends
(`accept` and `reject`, 00_scope.md R16), the commands' shared effects, the read port and the reset.
CRCFOLD has no trap and no trap return: `reject` is all that an error does (60_exceptions.md R125,
R131, R138, R139). -/

namespace Sys2Proof.Machine

/-- The canonical form of the table RAM: indices rise strictly and are below 256 (20_memory.md R40). -/
abbrev Memory.wf (m : Memory) : Prop :=
  m.Pairwise (fun a b => a.1 < b.1) ∧ ∀ cell ∈ m, cell.1 < Config.tableEntries

/-- Entry `i`, or nothing where TWR has not written it since reset (20_memory.md R42, R43). -/
def Memory.read : Memory → Nat → Option Word
  | [], _ => none
  | (j, w) :: rest, i => if i = j then some w else Memory.read rest i

/-- The whole 64-bit entry `i` is written at once (20_memory.md R42). -/
def Memory.write : Memory → Nat → Word → Memory
  | [], i, v => [(i, v)]
  | (j, w) :: rest, i, v =>
    if i < j then (i, v) :: (j, w) :: rest
    else if i = j then (i, v) :: rest
    else (j, w) :: Memory.write rest i v

/-- `accept` (00_scope.md R16): the command ends with STATUS.ERR <- 0. -/
def accept (s : State) : State := { s with err := ErrCode.ok.bits }

/-- `reject(code)` (60_exceptions.md R131): the one way an error is taken. STATUS.ERR <- code and
STATUS.STICKY <- 1, and nothing else changes. -/
def reject (code : ErrCode) (s : State) : State := { s with err := code.bits, sticky := true }

/-- TWR's effect once the phase allows it: TABLE[idx] <- value (40_table_setup.md R80). -/
def writeEntry (idx : Byte) (value : Word) (s : State) : State :=
  { s with table := s.table.write idx.toNat value }

/-- TLEN's effect once the phase allows it: TBLLEN <- count (40_table_setup.md R81). -/
def setLength (count : Word) (s : State) : State := { s with tbllen := count }

/-- A command that may not run during a fold: LOCKED while ACTIVE = 1 (60_exceptions.md R133). -/
def whileIdle (effect : State → State) (s : State) : State :=
  if s.active then reject .locked s else accept (effect s)

/-- START's effect once it passes its checks: CFG, CRC and ACTIVE (41_fold.md R102). -/
def latch (v : Variant) (init : Word) (s : State) : State :=
  { s with cfg := v, crc := initV v init, active := true }

/-- START of variant v (41_fold.md R102): the phase is checked before the table length
(60_exceptions.md R135). -/
def startFold (v : Variant) (init : Word) (s : State) : State :=
  if s.active then reject .sequence s
  else if s.tbllen ≠ Config.requiredLength then reject .invalidTable s
  else accept (latch v init s)

/-- FEED (41_fold.md R103): one table read and one `step_V` under the latched variant. A read of an
entry not written since reset faults (20_memory.md R43). -/
def feedByte (b : Byte) (s : State) : Host.Outcome State Fault Refusal :=
  if s.active then
    let index := tableIndex s.cfg s.crc b
    match s.table.read index.toNat with
    | some entry => .next (accept { s with crc := stepV s.cfg entry s.crc })
    | none => .fault (.unwrittenEntry index)
  else .next (reject .sequence s)

/-- FINISH's effect once the phase allows it: RESULT and ACTIVE (41_fold.md R104). -/
def publish (s : State) : State := { s with result := finV s.cfg s.crc, active := false }

/-- FINISH (41_fold.md R104): SEQUENCE where no fold is in progress (60_exceptions.md R132). -/
def finishFold (s : State) : State :=
  if s.active then accept (publish s) else reject .sequence s

/-- CLRERR's effect: STATUS.STICKY <- 0 (42_housekeeping.md R121). -/
def clearSticky (s : State) : State := { s with sticky := false }

/-- The value the read port gives at an address (10_state.md R30, R31): STATUS, RESULT, TBLLEN, CFG,
and 0 at the reserved addresses. -/
def readPort (addr : BitVec 4) (s : State) : Word :=
  match addr.toNat with
  | 0 => statusWord s
  | 1 => s.result
  | 2 => s.tbllen
  | 3 => cfgWord s.cfg
  | _ => 0

/-- One read-port read: the host receives the value, and no state of the block changes
(10_state.md R31, 20_memory.md R50). -/
def hostRead (addr : BitVec 4) (s : State) : State := { s with reads := s.reads ++ [readPort addr s] }

/-- The block's reset (70_reset_and_hazards.md R150): every state element at its reset value, and the
record of written entries cleared. What the host still has to do and what it has read are the host's. -/
def resetBlock (s : State) : State :=
  { State.reset with pending := s.pending, reads := s.reads }

end Sys2Proof.Machine
end

