-- ==== Sys2Proof/Machine/Fold.lean ====
section
/-! DEFINITION. The meanings of the commands that run and end a fold, FEED and FINISH (41_fold.md). -/

namespace Sys2Proof.Machine

/-- FEED (41_fold.md R103). -/
def execFeed (byte : Byte) (s : State) : Host.Outcome State Fault Refusal := feedByte byte s

/-- FINISH (41_fold.md R104). -/
def execFinish (s : State) : Host.Outcome State Fault Refusal := .next (finishFold s)

end Sys2Proof.Machine
end

