-- ==== Sys2Proof/Machine/Housekeeping.lean ====
section
/-! DEFINITION. The meanings of the housekeeping commands, NOP and CLRERR (42_housekeeping.md). Both
are accepted in both phases. -/

namespace Sys2Proof.Machine

/-- NOP (42_housekeeping.md R120). -/
def execNop (s : State) : Host.Outcome State Fault Refusal := .next (accept s)

/-- CLRERR (42_housekeeping.md R121). -/
def execClrerr (s : State) : Host.Outcome State Fault Refusal := .next (accept (clearSticky s))

end Sys2Proof.Machine
end

