-- ==== Sys2Proof/Machine/Start.lean ====
section
/-! DEFINITION. The meanings of the ten START commands, one for each variant (41_fold.md R92 to R102). -/

namespace Sys2Proof.Machine

/-- START.N8 (41_fold.md R92 and R102). -/
def execStartN8 (init : Word) (s : State) : Host.Outcome State Fault Refusal :=
  .next (startFold ⟨.normal, .w8⟩ init s)

/-- START.N16 (41_fold.md R93 and R102). -/
def execStartN16 (init : Word) (s : State) : Host.Outcome State Fault Refusal :=
  .next (startFold ⟨.normal, .w16⟩ init s)

/-- START.N24 (41_fold.md R94 and R102). -/
def execStartN24 (init : Word) (s : State) : Host.Outcome State Fault Refusal :=
  .next (startFold ⟨.normal, .w24⟩ init s)

/-- START.N32 (41_fold.md R95 and R102). -/
def execStartN32 (init : Word) (s : State) : Host.Outcome State Fault Refusal :=
  .next (startFold ⟨.normal, .w32⟩ init s)

/-- START.N64 (41_fold.md R96 and R102). -/
def execStartN64 (init : Word) (s : State) : Host.Outcome State Fault Refusal :=
  .next (startFold ⟨.normal, .w64⟩ init s)

/-- START.R8 (41_fold.md R97 and R102). -/
def execStartR8 (init : Word) (s : State) : Host.Outcome State Fault Refusal :=
  .next (startFold ⟨.reflected, .w8⟩ init s)

/-- START.R16 (41_fold.md R98 and R102). -/
def execStartR16 (init : Word) (s : State) : Host.Outcome State Fault Refusal :=
  .next (startFold ⟨.reflected, .w16⟩ init s)

/-- START.R24 (41_fold.md R99 and R102). -/
def execStartR24 (init : Word) (s : State) : Host.Outcome State Fault Refusal :=
  .next (startFold ⟨.reflected, .w24⟩ init s)

/-- START.R32 (41_fold.md R100 and R102). -/
def execStartR32 (init : Word) (s : State) : Host.Outcome State Fault Refusal :=
  .next (startFold ⟨.reflected, .w32⟩ init s)

/-- START.R64 (41_fold.md R101 and R102). -/
def execStartR64 (init : Word) (s : State) : Host.Outcome State Fault Refusal :=
  .next (startFold ⟨.reflected, .w64⟩ init s)

end Sys2Proof.Machine
end

