-- ==== Sys2Proof/Machine/TableSetup.lean ====
section
/-! DEFINITION. The meanings of the table setup commands, TWR and TLEN (40_table_setup.md). -/

namespace Sys2Proof.Machine

/-- TWR (40_table_setup.md R80). -/
def execTwr (idx : Byte) (value : Word) (s : State) : Host.Outcome State Fault Refusal :=
  .next (whileIdle (writeEntry idx value) s)

/-- TLEN (40_table_setup.md R81). -/
def execTlen (count : Word) (s : State) : Host.Outcome State Fault Refusal :=
  .next (whileIdle (setLength count) s)

end Sys2Proof.Machine
end

