-- ==== Sys2Proof/Machine/Dispatch.lean ====
section
/-! DEFINITION. The dispatch: one arm for each command, each one call of its meaning. -/

namespace Sys2Proof.Machine

def exec (i : Instr) (s : State) : Host.Outcome State Fault Refusal :=
  match i with
  | .nop => Sys2Proof.Machine.execNop s
  | .twr idx value => Sys2Proof.Machine.execTwr idx value s
  | .tlen count => Sys2Proof.Machine.execTlen count s
  | .startN8 init => Sys2Proof.Machine.execStartN8 init s
  | .startN16 init => Sys2Proof.Machine.execStartN16 init s
  | .startN24 init => Sys2Proof.Machine.execStartN24 init s
  | .startN32 init => Sys2Proof.Machine.execStartN32 init s
  | .startN64 init => Sys2Proof.Machine.execStartN64 init s
  | .startR8 init => Sys2Proof.Machine.execStartR8 init s
  | .startR16 init => Sys2Proof.Machine.execStartR16 init s
  | .startR24 init => Sys2Proof.Machine.execStartR24 init s
  | .startR32 init => Sys2Proof.Machine.execStartR32 init s
  | .startR64 init => Sys2Proof.Machine.execStartR64 init s
  | .feed byte => Sys2Proof.Machine.execFeed byte s
  | .finish => Sys2Proof.Machine.execFinish s
  | .clrerr => Sys2Proof.Machine.execClrerr s

end Sys2Proof.Machine
end

