-- ==== Sys2Proof/Machine/Port.lean ====
section
/-! DEFINITION. What one action of the host does to the block: a command on the command port, a read of
the read port, or a reset. Each is one atomic step (00_scope.md R9, 20_memory.md R49, R53). -/

namespace Sys2Proof.Machine

/-- One command: it is decoded first, and a CMD that matches no row is rejected with ILLEGAL and has no
other effect (60_exceptions.md R134, R135). -/
def issue (c : Command) (s : State) : Host.Outcome State Fault Refusal :=
  match decode c with
  | .row i => exec i s
  | .illegal => .next (reject .illegal s)

/-- One action of the host. -/
def perform (a : HostAction) (s : State) : Host.Outcome State Fault Refusal :=
  match a with
  | .command c => issue c s
  | .read addr => .next (hostRead addr s)
  | .reset => .next (resetBlock s)

/-- The block takes the next action and the rest stay in order (00_scope.md R9, 10_state.md R33). With
nothing pending it holds all its state unchanged (60_exceptions.md R146). -/
def takeNext (s : State) : Host.Outcome State Fault Refusal :=
  match s.pending with
  | [] => .next s
  | a :: rest => perform a { s with pending := rest }

end Sys2Proof.Machine
end

