-- ==== Sys2Proof/Machine/Step.lean ====
section
/-! DEFINITION. One step of the machine, and the placing of a command where the next step takes it. -/

namespace Sys2Proof.Machine

/-- One step: the block consumes the host's next action (10_state.md R33). -/
def step (s : State) : Host.Outcome State Fault Refusal := takeNext s

/-- The host presents the command with these bits next; its other actions follow. CRCFOLD fetches
nothing (20_memory.md R57): this is the command port, and it holds CMD and ARG whole. -/
def State.withFetchWord (s : State) (nbits w : Nat) : State :=
  { s with pending := .command (commandOfBits nbits w) :: s.pending }

end Sys2Proof.Machine
end

