-- ==== Sys2Proof/Machine/Assembler.lean ====
section
/-! DEFINITION. What stands between a program and the command port: the assembler of 30_encoding.md R73
and R74, from a line's text to the host's actions, and the commands of one fold call (00_scope.md R10,
40_table_setup.md R82). -/

namespace Sys2Proof.Machine

/-- One command, presented with the words of its encoding. -/
def send (i : Instr) : HostAction := .command (encode i)

/-- One FEED for each byte, first one first (20_memory.md R45). -/
def feedAll (data : List Byte) : List HostAction := data.map (fun b => send (.feed b))

/-- TWR of the given entries at the indices from `first` on. -/
def writeFrom : Nat → List Word → List HostAction
  | _, [] => []
  | first, e :: rest => send (.twr (BitVec.ofNat 8 first) e) :: writeFrom (first + 1) rest

/-- START, the FEEDs and FINISH of one fold (00_scope.md R10). -/
def foldCommands (v : Variant) (init : Word) (data : List Byte) : List HostAction :=
  send (startOf v init) :: (feedAll data ++ [send .finish])

/-- The commands of the source's call `fold(direction, width, data, initial, table)` (00_scope.md R10):
the first min(count, 256) entries, the entry count as supplied (40_table_setup.md R82), and the fold.
The caller then reads RESULT. -/
def foldCall (table : List Word) (v : Variant) (init : Word) (data : List Byte) : List HostAction :=
  writeFrom 0 (table.take Config.tableEntries) ++
    (send (.tlen (BitVec.ofNat 64 table.length)) :: foldCommands v init data)

/-- The read-port address of a register (10_state.md R30). -/
def portAddress : PortReg → BitVec 4
  | .status => 0x0
  | .result => 0x1
  | .tbllen => 0x2
  | .cfg => 0x3

/-- The host's actions for one line whose operands are in range (30_encoding.md R73, R74). -/
def expand : Source → List HostAction
  | .nop => [send .nop]
  | .twr idx value => [send (.twr (BitVec.ofNat 8 idx) (BitVec.ofNat 64 value))]
  | .tlen count => [send (.tlen (BitVec.ofNat 64 count))]
  | .start v init => [send (startOf v (BitVec.ofNat 64 init))]
  | .feed byte => [send (.feed (BitVec.ofNat 8 byte))]
  | .finish => [send .finish]
  | .clrerr => [send .clrerr]
  | .word cmd arg => [.command ⟨BitVec.ofNat 16 cmd, BitVec.ofNat 64 arg⟩]
  | .feeds data => feedAll (data.map (BitVec.ofNat 8))
  | .ldtable entries =>
    writeFrom 0 (entries.map (BitVec.ofNat 64)) ++ [send (.tlen Config.requiredLength)]
  | .fold v init data => foldCommands v (BitVec.ofNat 64 init) (data.map (BitVec.ofNat 8))
  | .read reg => [.read (portAddress reg)]

/-- The assembler: it refuses a line with an operand out of range (30_encoding.md R73). -/
def assemble (l : Source) : Option (List HostAction) :=
  if l.wellFormed then some (expand l) else none

/-- A piece of a line of text. -/
inductive Token where
  | word (letters : List Char)
  | comma
  | character (c : Char)
  | text (letters : List Char)
deriving DecidableEq, Repr

/-- The word being read, if any, goes before the tokens that follow it. -/
def flushWord (letters : List Char) (rest : List Token) : List Token :=
  if letters.isEmpty then rest else .word letters.reverse :: rest

/-- The tokens of a line. The second argument is the word being read and the third the text between
double quotes being read, both last letter first. A `;` outside quotes starts a comment.
DESIGN CHOICE (log entry 10, unsafe), since 30_encoding.md R73 names no separator but the comma: any
white space ends a word, a quoted operand needs none before it, and a quote that closes nothing is a
letter of its word. -/
def tokens : List Char → List Char → Option (List Char) → Option (List Token)
  | [], letters, none => some (flushWord letters [])
  | [], _, some _ => none
  | '\'' :: c :: '\'' :: rest, letters, none =>
    (tokens rest [] none).map (fun ts => flushWord letters (.character c :: ts))
  | c :: rest, letters, none =>
    if c = ';' then some (flushWord letters [])
    else if c = ',' then (tokens rest [] none).map (fun ts => flushWord letters (.comma :: ts))
    else if c = '\"' then (tokens rest [] (some [])).map (flushWord letters)
    else if c.isWhitespace then (tokens rest [] none).map (flushWord letters)
    else tokens rest (c :: letters) none
  | c :: rest, letters, some quoted =>
    if c = '\"' then (tokens rest [] none).map (fun ts => .text quoted.reverse :: ts)
    else tokens rest letters (some (c :: quoted))

/-- The value of a digit: 0 to 9, and a to f in either case. -/
def digitValue (c : Char) : Option Nat :=
  if '0' ≤ c ∧ c ≤ '9' then some (c.toNat - '0'.toNat)
  else if 'a' ≤ c ∧ c ≤ 'f' then some (c.toNat - 'a'.toNat + 10)
  else if 'A' ≤ c ∧ c ≤ 'F' then some (c.toNat - 'A'.toNat + 10)
  else none

/-- The number the digits write in a base, above the value read so far. -/
def digitsValue (base : Nat) : Nat → List Char → Option Nat
  | n, [] => some n
  | n, c :: rest =>
    match digitValue c with
    | some d => if d < base then digitsValue base (n * base + d) rest else none
    | none => none

/-- A number, decimal or 0x hexadecimal (30_encoding.md R73). That leading zeros are read and change
nothing is a DESIGN CHOICE (log entry 10, unsafe). -/
def numberValue : List Char → Option Nat
  | [] => none
  | '0' :: 'x' :: d :: rest => digitsValue 16 0 (d :: rest)
  | d :: rest => digitsValue 10 0 (d :: rest)

/-- The ASCII code of a character (30_encoding.md R73). -/
def asciiCode (c : Char) : Option Nat := if c.toNat < 128 then some c.toNat else none

/-- The value of an operand: a number, or a character in single quotes. -/
def operandValue : Token → Option Nat
  | .word letters => numberValue letters
  | .character c => asciiCode c
  | .comma | .text _ => none

/-- Operands are separated by commas (30_encoding.md R73). -/
def operands : List Token → Option (List Token)
  | [] => some []
  | [.comma] => none
  | [t] => some [t]
  | t :: .comma :: rest =>
    match t, operands rest with
    | .comma, _ | _, some [] | _, none => none
    | _, some ts => some (t :: ts)
  | _ :: _ :: _ => none

/-- The bytes of `feeds`: one text in double quotes, or one or more bytes (30_encoding.md R74). That the
text may be empty, and may not stand beside bytes, is a DESIGN CHOICE (log entry 10, unsafe). -/
def dataBytes : List Token → Option (List Nat)
  | [] => none
  | [.text letters] => letters.mapM asciiCode
  | ts => ts.mapM operandValue

/-- The variant a suffix names: n8 to r64 (30_encoding.md R73). -/
def variantNamed : List Char → Option Variant
  | ['n', '8'] => some ⟨.normal, .w8⟩
  | ['n', '1', '6'] => some ⟨.normal, .w16⟩
  | ['n', '2', '4'] => some ⟨.normal, .w24⟩
  | ['n', '3', '2'] => some ⟨.normal, .w32⟩
  | ['n', '6', '4'] => some ⟨.normal, .w64⟩
  | ['r', '8'] => some ⟨.reflected, .w8⟩
  | ['r', '1', '6'] => some ⟨.reflected, .w16⟩
  | ['r', '2', '4'] => some ⟨.reflected, .w24⟩
  | ['r', '3', '2'] => some ⟨.reflected, .w32⟩
  | ['r', '6', '4'] => some ⟨.reflected, .w64⟩
  | _ => none

/-- The register a name stands for in `read REG` (30_encoding.md R74). -/
def registerNamed : List Char → Option PortReg
  | ['S', 'T', 'A', 'T', 'U', 'S'] => some .status
  | ['R', 'E', 'S', 'U', 'L', 'T'] => some .result
  | ['T', 'B', 'L', 'L', 'E', 'N'] => some .tbllen
  | ['C', 'F', 'G'] => some .cfg
  | _ => none

/-- The table a name stands for, among the tables given with the program (30_encoding.md R74). That the
first of two with one name is taken is a DESIGN CHOICE (log entry 10, unsafe). -/
def tableNamed : List (List Char × List Nat) → List Char → Option (List Nat)
  | [], _ => none
  | (known, entries) :: rest, name => if known = name then some entries else tableNamed rest name

/-- The forms whose operands are all values (30_encoding.md R73), by mnemonic in lower case. -/
def valueForm : List Char → List Nat → Option Source
  | ['n', 'o', 'p'], [] => some .nop
  | ['t', 'w', 'r'], [idx, value] => some (.twr idx value)
  | ['t', 'l', 'e', 'n'], [count] => some (.tlen count)
  | 's' :: 't' :: 'a' :: 'r' :: 't' :: '.' :: suffix, [init] =>
    (variantNamed suffix).map (fun v => .start v init)
  | ['f', 'e', 'e', 'd'], [byte] => some (.feed byte)
  | ['f', 'i', 'n', 'i', 's', 'h'], [] => some .finish
  | ['c', 'l', 'r', 'e', 'r', 'r'], [] => some .clrerr
  | ['.', 'w', 'o', 'r', 'd'], [cmd, arg] => some (.word cmd arg)
  | _, _ => none

/-- The line a mnemonic in lower case and its operands write: the pseudo-instructions of 30_encoding.md
R74, which may name a text, a table or a register, and else a form of R73. -/
def lineForm (tables : List (List Char × List Nat)) (mnemonic : List Char) (ts : List Token) :
    Option Source :=
  match mnemonic, ts with
  | ['f', 'e', 'e', 'd', 's'], ts => (dataBytes ts).map .feeds
  | ['l', 'd', 't', 'a', 'b', 'l', 'e'], [.word name] => (tableNamed tables name).map .ldtable
  | 'f' :: 'o' :: 'l' :: 'd' :: '.' :: suffix, init :: data =>
    match variantNamed suffix, operandValue init, dataBytes data with
    | some v, some a, some bytes => some (.fold v a bytes)
    | _, _, _ => none
  | ['r', 'e', 'a', 'd'], [.word name] => (registerNamed name).map .read
  | mnemonic, ts =>
    match ts.mapM operandValue with
    | some values => valueForm mnemonic values
    | none => none

/-- One line of text: nothing for a line with no word on it, else one command or pseudo-instruction.
Mnemonics are case-insensitive, and an unknown one is refused (30_encoding.md R73). -/
def parseLine (tables : List (List Char × List Nat)) (line : List Char) : Option (List Source) :=
  match tokens line [] none with
  | some [] => some []
  | some (.word mnemonic :: ts) =>
    match operands ts with
    | some os => (lineForm tables (mnemonic.map Char.toLower) os).map (fun l => [l])
    | none => none
  | some (_ :: _) | none => none

/-- The host's actions for a program's lines, in order; one refused line refuses the program. -/
def assembleText (tables : List (List Char × List Nat)) : List (List Char) → Option (List HostAction)
  | [] => some []
  | line :: rest =>
    match (parseLine tables line).bind (List.mapM assemble), assembleText tables rest with
    | some here, some later => some (here.flatten ++ later)
    | _, _ => none

end Sys2Proof.Machine
end

