-- ==== Sys2Proof/Machine/Reference.lean ====
section
/-! DEFINITION. The fold as a pure function, `fold_V` (00_scope.md R17, 41_fold.md R105): the source's
`fold(direction, width, data, initial, table)`, over the datapath functions the engine uses. The table
is a function of the index here; the engine's own table is plain data. -/

namespace Sys2Proof.Machine

/-- `step_V(r, b)` over a table (00_scope.md R17, 41_fold.md R88, R89). -/
def foldByte (T : Byte → Word) (v : Variant) (r : Word) (b : Byte) : Word :=
  stepV v (T (tableIndex v r b)) r

/-- The register after the bytes of `data`, first one first. -/
def foldBytes (T : Byte → Word) (v : Variant) (r : Word) (data : List Byte) : Word :=
  data.foldl (foldByte T v) r

/-- `fold_V(d, a)` (00_scope.md R17). -/
def foldV (T : Byte → Word) (v : Variant) (data : List Byte) (a : Word) : Word :=
  finV v (foldBytes T v (initV v a) data)

/-- A bounded table: for width 24, no entry has a bit of [31:24] set (00_scope.md R18). -/
def Bounded (T : Byte → Word) : Prop := ∀ i, (trunc 32 (T i)).toNat ≤ 0xFFFFFF

/-- The bytes of the FEED commands among some actions of the host, in issue order (41_fold.md R116). -/
def fedBytes : List HostAction → List Byte
  | [] => []
  | .command c :: rest =>
    match decode c with
    | .row (.feed b) => b :: fedBytes rest
    | _ => fedBytes rest
  | _ :: rest => fedBytes rest

/-- The actions that end a fold in progress: FINISH, and a reset (70_reset_and_hazards.md R151). -/
def endsFold : HostAction → Bool
  | .command c => decode c == .row .finish
  | .read _ => false
  | .reset => true

/-- The actions that clear STATUS.STICKY: CLRERR, and a reset (10_state.md R29). -/
def clearsSticky : HostAction → Bool
  | .command c => decode c == .row .clrerr
  | .read _ => false
  | .reset => true

/-- An action is a read-port read. -/
def isRead : HostAction → Bool
  | .read _ => true
  | .command _ | .reset => false

end Sys2Proof.Machine
end

