-- ==== Sys2Proof/Safety.lean ====
section
/-! DEFINITION. What claims about the block rest on: the launch premises of 70_reset_and_hazards.md
R163, what a safe run is, and the invariant every step keeps. -/

namespace Sys2Proof.Machine

/-- *post-reset*: the block is in the state of 10_state.md R36 (70_reset_and_hazards.md R163). -/
def PostReset (s : State) : Prop := resetBlock s = s

/-- *table-loaded(T)* (70_reset_and_hazards.md R163): IDLE, TBLLEN = 256, and every entry written since
reset with T's. -/
structure TableLoaded (T : Byte → Word) (s : State) : Prop where
  idle : s.active = false
  length : s.tbllen = Config.requiredLength
  entries : ∀ i : Byte, s.table.read i.toNat = some (T i)

/-- *no-error*: STATUS.STICKY = 0 (70_reset_and_hazards.md R163). -/
def NoError (s : State) : Prop := s.sticky = false

/-- Every entry is written since reset: no FEED can fault (93_implementation_defined.md I1). -/
def TableWritten (s : State) : Prop := ∀ i : Byte, (s.table.read i.toNat).isSome

/-- A safe run: `n` steps from `s` end in a state, with no fault and no refusal on the way. -/
def RunsSafely (n : Nat) (s : State) : Prop := ∃ t, Host.Core.run core n s = .next t

/-- One rule of 41_fold.md R92 to R101, for a variant `v`: its CMD decodes to its START, which loads
`init(ARG)`; a FEED reads the entry `index(r, b)` names and the register becomes `next(entry, r)`;
FINISH publishes `fin(r)`; and no fold returns more than `max`. -/
structure VariantRule (v : Variant) (cmd : BitVec 16) (start : Word → Instr) (init : Word → Word)
    (index : Word → Byte → Byte) (next : Word → Word → Word) (fin : Word → Word) (max : Nat) :
    Prop where
  decodes : ∀ arg, decode ⟨cmd, arg⟩ = .row (start arg)
  starts : ∀ (arg : Word) (s : State), s.active = false → s.tbllen = 256#64 →
    exec (start arg) s =
      .next { s with cfg := v, crc := init arg, active := true, err := 0x0 }
  feeds : ∀ (b : Byte) (s : State) (entry : Word), s.active = true → s.cfg = v →
    s.table.read (index s.crc b).toNat = some entry →
    exec (.feed b) s = .next { s with crc := next entry s.crc, err := 0x0 }
  finishes : ∀ s : State, s.active = true → s.cfg = v →
    exec .finish s = .next { s with result := fin s.crc, active := false, err := 0x0 }
  range : ∀ (T : Byte → Word) (data : List Byte) (arg : Word), (foldV T v data arg).toNat ≤ max

/-- The codes the core writes to STATUS.ERR (10_state.md R28, 93_implementation_defined.md I9, I10). -/
def raisedByCore (e : BitVec 4) : Bool :=
  e == ErrCode.ok.bits || e == ErrCode.invalidTable.bits || e == ErrCode.sequence.bits ||
    e == ErrCode.locked.bits || e == ErrCode.illegal.bits

/-- The bits RESULT can have set after FINISH: 24 for N24 and C(W) otherwise (41_fold.md R104). -/
def resultBits (v : Variant) : Nat := if v = ⟨.normal, .w24⟩ then 24 else container v

/-- What holds at reset and what every step keeps. -/
structure Inv (s : State) : Prop where
  /-- The table RAM is in its canonical form (20_memory.md R40). -/
  table_wf : s.table.wf
  /-- Bits [63:C] of CRC are 0 (10_state.md R21). -/
  crc_fits : s.crc.toNat < 2 ^ container s.cfg
  /-- A fold in progress has a table of the required length (20_memory.md R54). -/
  length_valid : s.active = true → s.tbllen = Config.requiredLength
  /-- Out of a fold, RESULT has the bits of the variant that published it (41_fold.md R104). -/
  result_fits : s.active = false → s.result.toNat < 2 ^ resultBits s.cfg
  /-- Only the core's codes stand in STATUS.ERR (10_state.md R28). -/
  err_raised : raisedByCore s.err = true
  /-- A rejection still shown in ERR is recorded in STICKY (10_state.md R29). -/
  err_sticky : s.err ≠ ErrCode.ok.bits → s.sticky = true

end Sys2Proof.Machine
end

