-- ==== Sys2Proof/Certificates/Slice0/Obligations.lean ====
section
/-! DEFINITION. The statements for the provers. Each docstring names the rules or sections of the spec
it formalises; STATUS.ERR codes are written as the numbers of 10_state.md R28. -/

open Sys2Proof Sys2Proof.Machine

/-! ## Encoding -/

/-- Tier 3. 30_encoding.md sections 1, 3 and 6: the encoder and the decoder agree in both directions. A
command's words decode to it; and a word that decodes to a command is that command's CMD, with the same
ARG, or with an ARG that the command ignores and that is written as 0. -/
def Obligations.EncoderAndDecoderAgree : Prop :=
  (∀ i, decode (encode i) = .row i) ∧
  ∀ c i, decode c = .row i →
    (encode i).cmd = c.cmd ∧
    ((encode i).arg = c.arg ∨
      ((encode i).arg = 0 ∧ ∀ other, decode ⟨c.cmd, other⟩ = .row i))

/-- R67: the sixteen rows, each CMD with its command and its ARG; at most one row matches any CMD; the
legal CMD values are 526. -/
def Obligations.OpcodeMapIsTheSpecs : Prop :=
  (∀ arg : Word,
    decode ⟨0x0000, arg⟩ = .row .nop ∧
    (∀ idx : Byte, decode ⟨0x1000 + idx.setWidth 16, arg⟩ = .row (.twr idx arg)) ∧
    decode ⟨0x2000, arg⟩ = .row (.tlen arg) ∧
    decode ⟨0x3000, arg⟩ = .row (.startN8 arg) ∧
    decode ⟨0x3001, arg⟩ = .row (.startN16 arg) ∧
    decode ⟨0x3002, arg⟩ = .row (.startN24 arg) ∧
    decode ⟨0x3003, arg⟩ = .row (.startN32 arg) ∧
    decode ⟨0x3004, arg⟩ = .row (.startN64 arg) ∧
    decode ⟨0x3008, arg⟩ = .row (.startR8 arg) ∧
    decode ⟨0x3009, arg⟩ = .row (.startR16 arg) ∧
    decode ⟨0x300A, arg⟩ = .row (.startR24 arg) ∧
    decode ⟨0x300B, arg⟩ = .row (.startR32 arg) ∧
    decode ⟨0x300C, arg⟩ = .row (.startR64 arg) ∧
    (∀ b : Byte, decode ⟨0x4000 + b.setWidth 16, arg⟩ = .row (.feed b)) ∧
    decode ⟨0x5000, arg⟩ = .row .finish ∧
    decode ⟨0x6000, arg⟩ = .row .clrerr) ∧
  (∀ cmd : BitVec 16, (rows.filter (fun r => r.accepts cmd)).length ≤ 1) ∧
  ∃ legal : List (BitVec 16), legal.Nodup ∧ legal.length = 526 ∧
    ∀ c : Command, decode c ≠ .illegal ↔ c.cmd ∈ legal

/-- R69, R70 and R134: the commands that match no row are those with an unassigned OPC, a reserved bit
set or a reserved WCODE, whatever ARG holds and in either phase; each is rejected with ILLEGAL and
changes nothing else. -/
def Obligations.IllegalExactlyTheReservedEncodings : Prop :=
  ∀ c : Command,
    (decode c = .illegal ↔
      7 ≤ (c.cmd.extractLsb' 12 4).toNat ∨
      c.cmd.extractLsb' 8 4 ≠ 0#4 ∨
      (c.cmd.extractLsb' 12 4 ∈ [0x0#4, 0x2#4, 0x5#4, 0x6#4] ∧ c.cmd.extractLsb' 0 8 ≠ 0#8) ∨
      (c.cmd.extractLsb' 12 4 = 0x3#4 ∧ c.cmd.extractLsb' 4 4 ≠ 0#4) ∨
      (c.cmd.extractLsb' 12 4 = 0x3#4 ∧ 5 ≤ (c.cmd.extractLsb' 0 3).toNat)) ∧
    (decode c = .illegal ↔ c.wellFormed = false) ∧
    (decode c = .illegal → ∀ s : State,
      issue c s = .next { s with err := 0x6, sticky := true })

/-- 30_encoding.md sections 1 and 3: which row a command matches never depends on ARG, and the four
commands that do not use ARG do not depend on it at all. -/
def Obligations.DecoderNeverLooksAtArg : Prop :=
  (∀ (cmd : BitVec 16) (x y : Word) (i : Instr), decode ⟨cmd, x⟩ = .row i →
    ∃ j, decode ⟨cmd, y⟩ = .row j ∧ (encode j).cmd = (encode i).cmd) ∧
  (∀ (cmd : BitVec 16) (x y : Word), decode ⟨cmd, x⟩ = .illegal → decode ⟨cmd, y⟩ = .illegal) ∧
  (∀ (cmd : BitVec 16) (x y : Word), cmd.extractLsb' 12 4 ∈ [0x0#4, 0x4#4, 0x5#4, 0x6#4] →
    decode ⟨cmd, x⟩ = decode ⟨cmd, y⟩)

/-- Tier 1. Words of the spec's own examples and vectors (40_table_setup.md R80, R81, 41_fold.md R102,
R103, R104, R113, 42_housekeeping.md R121, 95_test_vectors.md sections 3.1, 3.3, 3.9, 3.10 and 4) decode
to what they stand for. -/
def Obligations.ExampleWordsDecode : Prop :=
  decode ⟨0x1001, 0x77073096⟩ = .row (.twr 0x01 0x77073096) ∧
  decode ⟨0x2000, 0x100⟩ = .row (.tlen 256) ∧
  decode ⟨0x300B, 0xFFFFFFFF⟩ = .row (.startR32 0xFFFFFFFF) ∧
  decode ⟨0x3002, 0xFFB704CE⟩ = .row (.startN24 0xFFB704CE) ∧
  decode ⟨0x4031, 0⟩ = .row (.feed 0x31) ∧
  decode ⟨0x5000, 0⟩ = .row .finish ∧
  decode ⟨0x6000, 0⟩ = .row .clrerr ∧
  decode ⟨0x1100, 5⟩ = .illegal ∧
  decode ⟨0x3005, 0⟩ = .illegal ∧
  decode ⟨0x7000, 0⟩ = .illegal

/-! ## The ports and the reset -/

/-- Tier 1. 00_scope.md section 4, 10_state.md section 6: a step runs the command the host presents
next, on the state without it; where that command matches no row, the step is its rejection. -/
def Obligations.StepRunsTheDecodedCommand : Prop :=
  ∀ (s : State) (c : Command) (rest : List HostAction), s.pending = .command c :: rest →
    (∀ i, decode c = .row i → step s = exec i { s with pending := rest }) ∧
    (decode c = .illegal →
      step s = .next { s with pending := rest, err := 0x6, sticky := true })

/-- 10_state.md section 6 (R33) and 60_exceptions.md section 4 (R146): each action, accepted or
rejected, is consumed and the next one presented is the next one taken; with none presented a step
changes nothing. -/
def Obligations.ActionsAreConsumedInOrder : Prop :=
  (∀ (s t : State) (a : HostAction) (rest : List HostAction),
    s.pending = a :: rest → step s = .next t → t.pending = rest) ∧
  (∀ s : State, s.pending = [] → step s = .next s)

/-- R27, R30 and R31: a read returns the register at its address, with STATUS and CFG laid out as the
spec says, 0 at the reserved addresses and at every address after reset; it changes nothing else, and
no address reads CRC or the table RAM. -/
def Obligations.ReadPortReturnsTheRegister : Prop :=
  (∀ (s : State) (addr : BitVec 4) (rest : List HostAction), s.pending = .read addr :: rest →
    step s = .next { s with pending := rest, reads := s.reads ++ [readPort addr s] }) ∧
  (∀ s : State,
    (readPort 0x0 s).toNat =
      (if s.active then 1 else 0) + 16 * s.err.toNat + (if s.sticky then 256 else 0) ∧
    readPort 0x1 s = s.result ∧
    readPort 0x2 s = s.tbllen ∧
    (readPort 0x3 s).toNat =
      (match s.cfg.width with | .w8 => 0 | .w16 => 1 | .w24 => 2 | .w32 => 3 | .w64 => 4) +
        (match s.cfg.dir with | .normal => 0 | .reflected => 8) ∧
    ∀ addr : BitVec 4, 4 ≤ addr.toNat → readPort addr s = 0) ∧
  (∀ addr, readPort addr State.reset = 0) ∧
  (∀ (s : State) (addr : BitVec 4) (r : Word) (m : Memory),
    readPort addr { s with crc := r, table := m } = readPort addr s)

/-- 10_state.md R31 and 20_memory.md R50 over whole runs: taking the reads out of what the host does
changes nothing in the end but what the host has read. -/
def Obligations.ReadsNeverChangeARun : Prop :=
  ∀ (acts : List HostAction) (s t : State),
    Host.Core.run core acts.length { s with pending := acts } = .next t →
    Host.Core.run core (acts.filter (fun a => !isRead a)).length
        { s with pending := acts.filter (fun a => !isRead a) } =
      .next { t with reads := s.reads }

/-- Tier 1. R36: every register after reset, IDLE, and no table entry written. -/
def Obligations.ResetLeavesTheStatedValues : Prop :=
  State.reset.crc = 0 ∧ cfgWord State.reset.cfg = 0 ∧ State.reset.cfg = ⟨.normal, .w8⟩ ∧
  State.reset.active = false ∧ State.reset.tbllen = 0 ∧ State.reset.result = 0 ∧
  State.reset.err = 0 ∧ State.reset.sticky = false ∧
  (∀ i : Byte, State.reset.table.read i.toNat = none) ∧
  ∀ (v : Variant) (arg : Word),
    exec (startOf v arg) State.reset = .next { State.reset with err := 0x1, sticky := true }

/-- 70_reset_and_hazards.md R150. Taking a reset as an action within a run is the model's choice (log
entry 2): from any state, also in the middle of a fold, it leaves the block as R36 says, and what the
host still has to do and has read. -/
def Obligations.ResetAbandonsEverything : Prop :=
  ∀ (s : State) (rest : List HostAction), s.pending = .reset :: rest →
    ∃ t, step s = .next t ∧ PostReset t ∧ t.active = false ∧ t.result = 0 ∧ t.tbllen = 0 ∧
      (∀ i : Byte, t.table.read i.toNat = none) ∧ t.pending = rest ∧ t.reads = s.reads

/-! ## The commands -/

/-- R71 and R120: CMD 0x0000 is NOP whatever ARG holds, any other CMD with OPC 0 is ILLEGAL, and NOP
clears STATUS.ERR and changes nothing else, in both phases. -/
def Obligations.NopClearsOnlyErr : Prop :=
  (∀ arg, decode ⟨0x0000, arg⟩ = .row .nop) ∧
  (∀ c : Command, c.cmd.extractLsb' 12 4 = 0x0#4 → c.cmd ≠ 0x0000 → decode c = .illegal) ∧
  ∀ s : State, exec .nop s = .next { s with err := 0x0 }

/-- R121: CMD 0x6000 is CLRERR, any other CMD with OPC 6 is ILLEGAL, and CLRERR clears STATUS.STICKY and
STATUS.ERR and changes nothing else, in both phases; a command rejected after it sets STICKY again. -/
def Obligations.ClrerrClearsStickyAndErr : Prop :=
  (∀ arg, decode ⟨0x6000, arg⟩ = .row .clrerr) ∧
  (∀ c : Command, c.cmd.extractLsb' 12 4 = 0x6#4 → c.cmd ≠ 0x6000 → decode c = .illegal) ∧
  (∀ s : State, exec .clrerr s = .next { s with err := 0x0, sticky := false }) ∧
  (∀ s t : State, statusWord s = 0x160 → exec .clrerr s = .next t → statusWord t = 0x000) ∧
  ∀ (c : Command) (s t u : State), exec .clrerr s = .next t → issue c t = .next u →
    (u.sticky = true ↔ u.err ≠ 0x0)

/-- R80: TWR of an entry. In IDLE it completes: the entry holds all 64 bits of ARG, every other entry
reads as before, and nothing else changes but STATUS.ERR; during a fold it is rejected with LOCKED. -/
def Obligations.TwrWritesOneEntry : Prop :=
  (∀ (idx : Byte) (arg : Word), decode ⟨0x1000 + idx.setWidth 16, arg⟩ = .row (.twr idx arg)) ∧
  (∀ c : Command, c.cmd.extractLsb' 12 4 = 0x1#4 → c.cmd.extractLsb' 8 4 ≠ 0#4 →
    decode c = .illegal) ∧
  (∀ (idx : Byte) (value : Word) (s : State), s.active = false →
    ∃ t, exec (.twr idx value) s = .next t ∧
      (∀ a : Nat, t.table.read a = if a = idx.toNat then some value else s.table.read a) ∧
      t = { s with table := t.table, err := 0x0 }) ∧
  ∀ (idx : Byte) (value : Word) (s : State), s.active = true →
    exec (.twr idx value) s = .next { s with err := 0x5, sticky := true }

/-- R81: TLEN. In IDLE it completes: TBLLEN holds all 64 bits of ARG, and a later START rejects every
count but 256; during a fold it is rejected with LOCKED. -/
def Obligations.TlenDeclaresTheLength : Prop :=
  (∀ arg, decode ⟨0x2000, arg⟩ = .row (.tlen arg)) ∧
  (∀ c : Command, c.cmd.extractLsb' 12 4 = 0x2#4 → c.cmd ≠ 0x2000 → decode c = .illegal) ∧
  (∀ (count : Word) (s : State), s.active = false →
    exec (.tlen count) s = .next { s with tbllen := count, err := 0x0 }) ∧
  (∀ (count : Word) (s t : State) (v : Variant) (arg : Word), s.active = false → count ≠ 256 →
    exec (.tlen count) s = .next t →
    exec (startOf v arg) t = .next { t with err := 0x1, sticky := true }) ∧
  ∀ (count : Word) (s : State), s.active = true →
    exec (.tlen count) s = .next { s with err := 0x5, sticky := true }

/-- R102, with the order of R135: every START (START.N8, N16, N24, N32, N64, R8, R16, R24, R32, R64 are
`startOf v` for the ten variants). A reserved WCODE or reserved bit is ILLEGAL first; during a fold
START is rejected with SEQUENCE; else with INVALID_TABLE where TBLLEN ≠ 256; else it completes, with
CFG the bits CMD[3:0], and does not read the table. `init_V` drops ARG above the container; ARG[31:24] is
kept for N24 and cleared for R24. -/
def Obligations.StartChecksThenLatches : Prop :=
  (∀ (c : Command) (s : State), c.cmd.extractLsb' 12 4 = 0x3#4 →
    (c.cmd.extractLsb' 4 8 ≠ 0#8 ∨ 5 ≤ (c.cmd.extractLsb' 0 3).toNat) →
    issue c s = .next { s with err := 0x6, sticky := true }) ∧
  (∀ (v : Variant) (arg : Word), initV v arg = initV v (trunc (container v) arg)) ∧
  (∀ arg : Word, (initV ⟨.normal, .w24⟩ arg).extractLsb' 24 8 = arg.extractLsb' 24 8 ∧
    (initV ⟨.reflected, .w24⟩ arg).extractLsb' 24 8 = 0#8) ∧
  ∀ (v : Variant) (arg : Word) (s : State),
    decode (encode (startOf v arg)) = .row (startOf v arg) ∧
    (encode (startOf v arg)).cmd.extractLsb' 4 12 = 0x300#12 ∧
    (encode (startOf v arg)).cmd.setWidth 4 = (cfgWord v).setWidth 4 ∧
    (s.active = true →
      exec (startOf v arg) s = .next { s with err := 0x4, sticky := true }) ∧
    (s.active = false → s.tbllen ≠ 256 →
      exec (startOf v arg) s = .next { s with err := 0x1, sticky := true }) ∧
    (s.active = false → s.tbllen = 256 →
      exec (startOf v arg) s =
        .next { s with cfg := v, crc := initV v arg, active := true, err := 0x0 })

/-- R92 to R96: the five normal variants, from START to RESULT, with the formulas of the rules. -/
def Obligations.NormalVariantsFollowTheirRules : Prop :=
  VariantRule ⟨.normal, .w8⟩ 0x3000 .startN8 (fun a => (a.setWidth 8).setWidth 64)
    (fun r b => b ^^^ r.extractLsb' 0 8)
    (fun e r => (e.setWidth 8).setWidth 64 ^^^ ((r <<< 8).setWidth 8).setWidth 64)
    (fun r => r) 0xFF ∧
  (∀ r e : Word, (e.setWidth 8).setWidth 64 ^^^ ((r <<< 8).setWidth 8).setWidth 64 =
    (e.setWidth 8).setWidth 64) ∧
  VariantRule ⟨.normal, .w16⟩ 0x3001 .startN16 (fun a => (a.setWidth 16).setWidth 64)
    (fun r b => b ^^^ r.extractLsb' 8 8)
    (fun e r => (e.setWidth 16).setWidth 64 ^^^ ((r <<< 8).setWidth 16).setWidth 64)
    (fun r => r) 0xFFFF ∧
  VariantRule ⟨.normal, .w24⟩ 0x3002 .startN24 (fun a => (a.setWidth 32).setWidth 64)
    (fun r b => b ^^^ r.extractLsb' 16 8)
    (fun e r => (e.setWidth 32).setWidth 64 ^^^ ((r <<< 8).setWidth 32).setWidth 64)
    (fun r => r &&& 0xFFFFFF) 0xFFFFFF ∧
  VariantRule ⟨.normal, .w32⟩ 0x3003 .startN32 (fun a => (a.setWidth 32).setWidth 64)
    (fun r b => b ^^^ r.extractLsb' 24 8)
    (fun e r => (e.setWidth 32).setWidth 64 ^^^ ((r <<< 8).setWidth 32).setWidth 64)
    (fun r => r) 0xFFFFFFFF ∧
  VariantRule ⟨.normal, .w64⟩ 0x3004 .startN64 (fun a => a)
    (fun r b => b ^^^ r.extractLsb' 56 8) (fun e r => e ^^^ (r <<< 8))
    (fun r => r) 0xFFFFFFFFFFFFFFFF

/-- R97 to R101: the five reflected variants, from START to RESULT, with the formulas of the rules. A
step of R24 leaves bits [31:24] of the register those of the entry it reads; over a bounded table its
register stays within 24 bits, and over another its result can exceed them. -/
def Obligations.ReflectedVariantsFollowTheirRules : Prop :=
  VariantRule ⟨.reflected, .w8⟩ 0x3008 .startR8 (fun a => (a.setWidth 8).setWidth 64)
    (fun r b => b ^^^ r.extractLsb' 0 8) (fun e r => (e.setWidth 8).setWidth 64 ^^^ (r >>> 8))
    (fun r => r) 0xFF ∧
  (∀ r : Word, r.toNat < 2 ^ 8 → r >>> 8 = 0) ∧
  VariantRule ⟨.reflected, .w16⟩ 0x3009 .startR16 (fun a => (a.setWidth 16).setWidth 64)
    (fun r b => b ^^^ r.extractLsb' 0 8) (fun e r => (e.setWidth 16).setWidth 64 ^^^ (r >>> 8))
    (fun r => r) 0xFFFF ∧
  VariantRule ⟨.reflected, .w24⟩ 0x300A .startR24 (fun a => (a.setWidth 32).setWidth 64 &&& 0xFFFFFF)
    (fun r b => b ^^^ r.extractLsb' 0 8) (fun e r => (e.setWidth 32).setWidth 64 ^^^ (r >>> 8))
    (fun r => r) 0xFFFFFFFF ∧
  (∀ a : Word, (a.setWidth 32).setWidth 64 &&& 0xFFFFFF = (a.setWidth 24).setWidth 64) ∧
  (∀ e r : Word, r.toNat < 2 ^ 32 →
    ((e.setWidth 32).setWidth 64 ^^^ (r >>> 8)).extractLsb' 24 8 = e.extractLsb' 24 8) ∧
  (∀ (T : Byte → Word) (data : List Byte) (arg : Word), Bounded T →
    (foldBytes T ⟨.reflected, .w24⟩ (initV ⟨.reflected, .w24⟩ arg) data).toNat ≤ 0xFFFFFF) ∧
  (∃ (T : Byte → Word) (data : List Byte) (arg : Word),
    0xFFFFFF < (foldV T ⟨.reflected, .w24⟩ data arg).toNat) ∧
  VariantRule ⟨.reflected, .w32⟩ 0x300B .startR32 (fun a => (a.setWidth 32).setWidth 64)
    (fun r b => b ^^^ r.extractLsb' 0 8) (fun e r => (e.setWidth 32).setWidth 64 ^^^ (r >>> 8))
    (fun r => r) 0xFFFFFFFF ∧
  VariantRule ⟨.reflected, .w64⟩ 0x300C .startR64 (fun a => a)
    (fun r b => b ^^^ r.extractLsb' 0 8) (fun e r => e ^^^ (r >>> 8))
    (fun r => r) 0xFFFFFFFFFFFFFFFF

/-- 41_fold.md section 3 and 20_memory.md section 1: FEED. In IDLE it is rejected with SEQUENCE; during a
fold it completes where the entry it reads is written, changing CRC and STATUS.ERR alone, and faults where
it is not; every entry can be reached. That the fault names the index is the model's choice (log entry 7). -/
def Obligations.FeedFoldsOneByte : Prop :=
  (∀ (b : Byte) (arg : Word), decode ⟨0x4000 + b.setWidth 16, arg⟩ = .row (.feed b)) ∧
  (∀ c : Command, c.cmd.extractLsb' 12 4 = 0x4#4 → c.cmd.extractLsb' 8 4 ≠ 0#4 →
    decode c = .illegal) ∧
  (∀ (b : Byte) (s : State), s.active = false →
    exec (.feed b) s = .next { s with err := 0x4, sticky := true }) ∧
  (∀ (b : Byte) (s : State) (entry : Word), s.active = true →
    s.table.read (tableIndex s.cfg s.crc b).toNat = some entry →
    exec (.feed b) s = .next { s with crc := stepV s.cfg entry s.crc, err := 0x0 }) ∧
  (∀ (b : Byte) (s : State), s.active = true →
    s.table.read (tableIndex s.cfg s.crc b).toNat = none →
    exec (.feed b) s = .fault (.unwrittenEntry (tableIndex s.cfg s.crc b))) ∧
  ∀ (v : Variant) (r : Word) (k : Byte), ∃ b, tableIndex v r b = k

/-- R104: FINISH. In IDLE it is rejected with SEQUENCE; during a fold it completes, publishing CRC, for
N24 its low 24 bits, and leaving CRC and CFG as they are. For a register of its container, RESULT has no
bit above it, and for N24 none above bit 23. -/
def Obligations.FinishPublishesTheResult : Prop :=
  (∀ arg, decode ⟨0x5000, arg⟩ = .row .finish) ∧
  (∀ c : Command, c.cmd.extractLsb' 12 4 = 0x5#4 → c.cmd ≠ 0x5000 → decode c = .illegal) ∧
  (∀ s : State, s.active = false →
    exec .finish s = .next { s with err := 0x4, sticky := true }) ∧
  (∀ s : State, s.active = true →
    exec .finish s = .next { s with
      result := if s.cfg = ⟨.normal, .w24⟩ then s.crc &&& 0xFFFFFF else s.crc,
      active := false, err := 0x0 }) ∧
  (∀ s t : State, s.active = true → s.crc.toNat < 2 ^ container s.cfg →
    exec .finish s = .next t →
    t.result.toNat < 2 ^ container s.cfg ∧
      (s.cfg = ⟨.normal, .w24⟩ → t.result.toNat < 2 ^ 24)) ∧
  ∀ (v : Variant) (arg : Word) (s t u : State), s.active = false → s.tbllen = 256 →
    exec (startOf v arg) s = .next t → exec .finish t = .next u →
    u.result = finV v (initV v arg)

/-- R86, R87, R88 and R89: the extracted byte and the per-byte update of both directions, generic in the
width; the result of a step is a value of the container. -/
def Obligations.GenericUpdateOfBothDirections : Prop :=
  ∀ (T : Byte → Word) (w : Width) (r : Word) (b : Byte),
    (extractedByte ⟨.normal, w⟩ r).toNat =
      r.toNat / 2 ^ ((policy ⟨.normal, w⟩).width - 8) % 256 ∧
    (extractedByte ⟨.reflected, w⟩ r).toNat = r.toNat % 256 ∧
    foldByte T ⟨.normal, w⟩ r b =
      trunc (container ⟨.normal, w⟩) (T (b ^^^ extractedByte ⟨.normal, w⟩ r)) ^^^
        trunc (container ⟨.normal, w⟩) (r <<< 8) ∧
    foldByte T ⟨.reflected, w⟩ r b =
      trunc (container ⟨.reflected, w⟩) (T (b ^^^ extractedByte ⟨.reflected, w⟩ r)) ^^^
        (r >>> 8) ∧
    (r.toNat < 2 ^ container ⟨.normal, w⟩ →
      (foldByte T ⟨.normal, w⟩ r b).toNat < 2 ^ container ⟨.normal, w⟩) ∧
    (r.toNat < 2 ^ container ⟨.reflected, w⟩ →
      (foldByte T ⟨.reflected, w⟩ r b).toNat < 2 ^ container ⟨.reflected, w⟩)

/-! ## Rules of the whole machine -/

/-- R135 and R136: with every table entry written, every command in every state completes, with the
outcome of the table, decode before phase and phase before validation. -/
def Obligations.EveryCommandHasItsOutcome : Prop :=
  ∀ (s : State) (c : Command), TableWritten s →
    ∃ t, issue c s = .next t ∧
      t.err = match decode c with
        | .illegal => 0x6
        | .row .nop | .row .clrerr => 0x0
        | .row (.twr _ _) | .row (.tlen _) => if s.active then 0x5 else 0x0
        | .row (.feed _) | .row .finish => if s.active then 0x0 else 0x4
        | .row (.startN8 _) | .row (.startN16 _) | .row (.startN24 _) | .row (.startN32 _)
        | .row (.startN64 _) | .row (.startR8 _) | .row (.startR16 _) | .row (.startR24 _)
        | .row (.startR32 _) | .row (.startR64 _) =>
          if s.active then 0x4 else if s.tbllen ≠ 256 then 0x1 else 0x0

/-- R131: a rejected command changes STATUS.ERR and STATUS.STICKY and nothing else, and is consumed. -/
def Obligations.RejectionIsPrecise : Prop :=
  ∀ (s t : State) (c : Command) (rest : List HostAction), s.pending = .command c :: rest →
    step s = .next t → t.err ≠ 0x0 →
    t = { s with pending := rest, err := t.err, sticky := true }

/-- R132 and R133: START (the ten variants) during a fold, and FEED and FINISH in IDLE, are rejected with
SEQUENCE; TWR and TLEN during a fold with LOCKED; none has any effect but STATUS. -/
def Obligations.WrongPhaseIsRejected : Prop :=
  ∀ s : State,
    (s.active = true →
      (∀ (v : Variant) (arg : Word),
        exec (startOf v arg) s = .next { s with err := 0x4, sticky := true }) ∧
      (∀ (idx : Byte) (value : Word),
        exec (.twr idx value) s = .next { s with err := 0x5, sticky := true }) ∧
      ∀ count : Word, exec (.tlen count) s = .next { s with err := 0x5, sticky := true }) ∧
    (s.active = false →
      (∀ b : Byte, exec (.feed b) s = .next { s with err := 0x4, sticky := true }) ∧
      exec .finish s = .next { s with err := 0x4, sticky := true })

/-- 10_state.md R29, one step: a rejected command sets STICKY, CLRERR and reset clear it, and nothing
else changes it. -/
def Obligations.StickyChangesOnlyAsStated : Prop :=
  ∀ (s t : State) (a : HostAction) (rest : List HostAction), s.pending = a :: rest →
    step s = .next t →
    (clearsSticky a = true → t.sticky = false) ∧
    (clearsSticky a = false →
      (t.sticky = true ↔ s.sticky = true ∨ ∃ c, a = .command c ∧ t.err ≠ 0x0))

/-- 10_state.md R29, over a run: where STICKY is 0 at the end of a run with no CLRERR and no reset in it,
no command of it was rejected. -/
def Obligations.ClearStickyMeansNoRejection : Prop :=
  ∀ (n : Nat) (s t : State), Inv s →
    (∀ a ∈ s.pending.take n, clearsSticky a = false) →
    Host.Core.run core n s = .next t → t.sticky = false →
    ∀ k ≤ n, ∃ u, Host.Core.run core k s = .next u ∧ u.err = 0x0

/-- 10_state.md sections 1 to 5 and 20_memory.md section 1: which accepted command writes each piece of
state. CRC: START and FEED; CFG: START; RESULT: FINISH; TBLLEN: TLEN; the table RAM: TWR; what the host
has read: no command. -/
def Obligations.EachStateHasItsWriters : Prop :=
  ∀ (s t : State) (c : Command) (rest : List HostAction), s.pending = .command c :: rest →
    step s = .next t →
    (t.crc ≠ s.crc →
      t.err = 0x0 ∧ ((∃ v arg, decode c = .row (startOf v arg)) ∨ ∃ b, decode c = .row (.feed b))) ∧
    (t.cfg ≠ s.cfg → t.err = 0x0 ∧ ∃ v arg, decode c = .row (startOf v arg) ∧ t.cfg = v) ∧
    (t.result ≠ s.result → t.err = 0x0 ∧ decode c = .row .finish) ∧
    (t.tbllen ≠ s.tbllen → t.err = 0x0 ∧ decode c = .row (.tlen t.tbllen)) ∧
    (t.table ≠ s.table → t.err = 0x0 ∧ ∃ idx value, decode c = .row (.twr idx value) ∧
      ∀ a, t.table.read a = if a = idx.toNat then some value else s.table.read a) ∧
    t.reads = s.reads

/-- R151, with 10_state.md R24: only an accepted FINISH or a reset ends ACTIVE = 1, and only an accepted
START sets it. -/
def Obligations.OnlyFinishOrResetEndsAFold : Prop :=
  ∀ s t : State, step s = .next t →
    (s.active = true → t.active = false →
      ∃ rest, s.pending = .reset :: rest ∨
        ∃ c, s.pending = .command c :: rest ∧ decode c = .row .finish ∧ t.err = 0x0) ∧
    (s.active = false → t.active = true →
      s.tbllen = 256 ∧ ∃ c rest v arg, s.pending = .command c :: rest ∧
        decode c = .row (startOf v arg) ∧ t.err = 0x0)

/-- 20_memory.md R43 and 93_implementation_defined.md I1: the machine faults exactly where a FEED of a
fold reads an entry not written since reset, and it never refuses a command. That the fault names the
index is the model's choice (log entry 7). -/
def Obligations.FaultsExactlyOnUnwrittenReads : Prop :=
  ∀ s : State,
    (∀ f, step s = .fault f ↔
      ∃ c rest b, s.pending = .command c :: rest ∧ decode c = .row (.feed b) ∧ s.active = true ∧
        s.table.read (tableIndex s.cfg s.crc b).toNat = none ∧
        f = .unwrittenEntry (tableIndex s.cfg s.crc b)) ∧
    ∀ r, step s ≠ .refused r

/-- 93_implementation_defined.md I1 over runs: once every entry is written, no run without a reset ever
faults, and every entry stays written. -/
def Obligations.LoadedTableNeverFaults : Prop :=
  ∀ (n : Nat) (s : State), TableWritten s → (∀ a ∈ s.pending, a ≠ .reset) →
    ∃ t, Host.Core.run core n s = .next t ∧ TableWritten t

/-- Tier 1. The reset state meets the invariant. -/
def Obligations.ResetMeetsTheInvariant : Prop := Inv State.reset

/-- Tier 3. Every step keeps the invariant: the table RAM in canonical form (R40), CRC within its
container (R21), TBLLEN = 256 during a fold (R54), RESULT within its variant out of a fold (R104), only
the core's codes in ERR (R28), and a shown rejection recorded in STICKY (R29). That CRC stays within
its container out of a fold too is read from R21 and R104 by inference (log entry 9). -/
def Obligations.EveryStepKeepsTheInvariant : Prop :=
  ∀ s t : State, Inv s → step s = .next t → Inv t

/-! ## Folds -/

/-- Tier 3. 41_fold.md R115 and R116, with 20_memory.md R54: from a fold in progress over a written table
T, whatever the host does short of FINISH and a reset, the run goes on and CRC is the fold of the bytes
of its FEEDs, in order; CFG, RESULT, TBLLEN and the table RAM stay. -/
def Obligations.FoldDataIsTheFedBytes : Prop :=
  ∀ (T : Byte → Word) (acts rest : List HostAction) (s : State), s.active = true →
    (∀ i : Byte, s.table.read i.toNat = some (T i)) → s.pending = acts ++ rest →
    (∀ a ∈ acts, endsFold a = false) →
    ∃ t, Host.Core.run core acts.length s = .next t ∧
      t.crc = foldBytes T s.cfg s.crc (fedBytes acts) ∧ t.active = true ∧ t.cfg = s.cfg ∧
      t.result = s.result ∧ t.tbllen = s.tbllen ∧ t.table = s.table ∧ t.pending = rest

/-- Tier 3. 41_fold.md R105 under the premise table-loaded(T) of 70_reset_and_hazards.md R163: START, one
FEED for each byte and FINISH, n + 2 commands, publish exactly `fold_V`, are all accepted, and change
nothing but CRC, CFG, RESULT and STATUS.ERR. -/
def Obligations.FoldPublishesFoldV : Prop :=
  ∀ (T : Byte → Word) (v : Variant) (arg : Word) (data : List Byte) (rest : List HostAction)
    (s : State), TableLoaded T s → s.pending = foldCommands v arg data ++ rest →
    Host.Core.run core (data.length + 2) s =
      .next { s with
        crc := foldBytes T v (initV v arg) data, cfg := v, result := foldV T v data arg,
        err := 0x0, pending := rest }

/-- Tier 3. 00_scope.md R10, the whole call from any IDLE state: 256 TWRs, TLEN, START, the FEEDs and
FINISH publish the fold over the caller's table. -/
def Obligations.CallWithAFullTableReturnsTheFold : Prop :=
  ∀ (table : List Word) (v : Variant) (arg : Word) (data : List Byte) (rest : List HostAction)
    (s : State), table.length = 256 → s.active = false →
    s.pending = foldCall table v arg data ++ rest →
    ∃ t, Host.Core.run core (data.length + 259) s = .next t ∧
      t.result = foldV (fun i => table.getD i.toNat 0) v data arg ∧ t.err = 0x0 ∧
      t.sticky = s.sticky ∧ t.active = false ∧ t.pending = rest

/-- Tier 3. 60_exceptions.md R126 and R127, 40_table_setup.md R82: a call whose table has another count
of entries, whatever they hold, folds nothing: START is rejected with INVALID_TABLE, its FEEDs and its
FINISH with SEQUENCE, and CRC, CFG, ACTIVE and RESULT stay. -/
def Obligations.CallWithAnotherLengthFoldsNothing : Prop :=
  ∀ (table : List Word) (v : Variant) (arg : Word) (data : List Byte) (rest : List HostAction)
    (s : State), table.length ≠ 256 → table.length < 2 ^ 64 → s.active = false →
    s.pending = foldCall table v arg data ++ rest →
    (∃ t, Host.Core.run core (min table.length 256 + 2) s = .next t ∧ t.err = 0x1 ∧
      t.sticky = true ∧ t.active = false) ∧
    ∃ t, Host.Core.run core (min table.length 256 + data.length + 3) s = .next t ∧
      t.result = s.result ∧ t.crc = s.crc ∧ t.cfg = s.cfg ∧ t.active = false ∧ t.err = 0x4 ∧
      t.sticky = true ∧ t.pending = rest

/-- Tier 3. R38: what a fold publishes depends on its variant, its operand, its bytes and the
table RAM alone. Two IDLE states that share the table and TBLLEN, and the fold's commands, publish the
same RESULT, or fault alike, whatever else they hold. -/
def Obligations.FoldIgnoresEarlierState : Prop :=
  ∀ (v : Variant) (arg : Word) (data : List Byte) (s u : State), s.active = false →
    u.active = false → s.table = u.table → s.tbllen = 256 → u.tbllen = 256 →
    match Host.Core.run core (data.length + 2) { s with pending := foldCommands v arg data },
      Host.Core.run core (data.length + 2) { u with pending := foldCommands v arg data } with
    | .next s', .next u' => s'.result = u'.result ∧ s'.cfg = v ∧ u'.cfg = v
    | .fault f, .fault g => f = g
    | _, _ => False

/-! ## Laws of the fold -/

/-- R106: a START followed directly by FINISH completes and publishes ARG's low C(W) bits, and for the two
24-bit variants its low 24: the fold of no bytes. Below 2^24 a 24-bit variant returns ARG itself. -/
def Obligations.EmptyFoldTruncatesArg : Prop :=
  (∀ (T : Byte → Word) (v : Variant) (arg : Word),
    foldV T v [] arg =
      match v.width with
      | .w8 => (arg.setWidth 8).setWidth 64
      | .w16 => (arg.setWidth 16).setWidth 64
      | .w24 => (arg.setWidth 24).setWidth 64
      | .w32 => (arg.setWidth 32).setWidth 64
      | .w64 => arg) ∧
  (∀ (T : Byte → Word) (v : Variant) (arg : Word) (s : State), s.active = false → s.tbllen = 256 →
    ∃ t u, exec (startOf v arg) s = .next t ∧ exec .finish t = .next u ∧
      u.result = foldV T v [] arg) ∧
  ∀ (T : Byte → Word) (v : Variant) (arg : Word), v.width = .w24 → arg.toNat < 2 ^ 24 →
    foldV T v [] arg = arg

/-- R107 (and R108's condition): folding A and then B from the result is folding A ++ B, for every
variant but R24 over every table, and for R24 over a bounded one. -/
def Obligations.FoldsComposeIncrementally : Prop :=
  ∀ (T : Byte → Word) (v : Variant) (A B : List Byte) (arg : Word),
    v ≠ ⟨.reflected, .w24⟩ ∨ Bounded T →
    foldV T v B (foldV T v A arg) = foldV T v (A ++ B) arg

/-- Tier 1. R108: R24 over the table whose every entry is 0xFF000000 does not compose, with the values
of the rule. -/
def Obligations.UnboundedTableBreaksComposition : Prop :=
  foldV (fun _ => 0xFF000000) ⟨.reflected, .w24⟩ ([0x00] ++ [0x00]) 0 = 0xFFFF0000 ∧
  foldV (fun _ => 0xFF000000) ⟨.reflected, .w24⟩ [0x00]
    (foldV (fun _ => 0xFF000000) ⟨.reflected, .w24⟩ [0x00] 0) = 0xFF000000 ∧
  foldV (fun _ => 0xFF000000) ⟨.reflected, .w24⟩ [0x00] 0xFF000000 = 0xFF000000

/-- R109: at width 8 the direction does not matter. -/
def Obligations.DirectionIrrelevantAtWidthEight : Prop :=
  (∀ arg, initV ⟨.normal, .w8⟩ arg = initV ⟨.reflected, .w8⟩ arg) ∧
  (∀ (T : Byte → Word) (r : Word) (b : Byte), r.toNat < 2 ^ 8 →
    foldByte T ⟨.normal, .w8⟩ r b = foldByte T ⟨.reflected, .w8⟩ r b ∧
    foldByte T ⟨.normal, .w8⟩ r b = trunc 8 (T (b ^^^ r.setWidth 8))) ∧
  (∀ r, finV ⟨.normal, .w8⟩ r = finV ⟨.reflected, .w8⟩ r) ∧
  ∀ (T : Byte → Word) (data : List Byte) (arg : Word),
    foldV T ⟨.normal, .w8⟩ data arg = foldV T ⟨.reflected, .w8⟩ data arg

/-- R110: tables that agree on the low C(W) bits of every entry give the same folds, and for N24 tables
that agree on the low 24. -/
def Obligations.HighEntryBitsNeverMatter : Prop :=
  ∀ (T U : Byte → Word) (v : Variant) (data : List Byte) (arg : Word),
    ((∀ i, trunc (container v) (T i) = trunc (container v) (U i)) →
      foldV T v data arg = foldV U v data arg) ∧
    (v = ⟨.normal, .w24⟩ → (∀ i, trunc 24 (T i) = trunc 24 (U i)) →
      foldV T v data arg = foldV U v data arg)

/-- R111: N24 returns at most 0xFFFFFF for every ARG, table and data, and no FINISH of N24 publishes more,
whatever the register holds. -/
def Obligations.NormalTwentyFourBitBound : Prop :=
  (∀ (T : Byte → Word) (data : List Byte) (arg : Word),
    (foldV T ⟨.normal, .w24⟩ data arg).toNat ≤ 0xFFFFFF) ∧
  ∀ s t : State, s.active = true → s.cfg = ⟨.normal, .w24⟩ → exec .finish s = .next t →
    t.result.toNat ≤ 0xFFFFFF

/-- R112: R24 returns at most 0xFFFFFF for every ARG and data over a bounded table, and can exceed it
over another, as in the rule's example. -/
def Obligations.ReflectedTwentyFourBitBound : Prop :=
  (∀ (T : Byte → Word) (data : List Byte) (arg : Word), Bounded T →
    (foldV T ⟨.reflected, .w24⟩ data arg).toNat ≤ 0xFFFFFF) ∧
  foldV (fun _ => 0xFF000000) ⟨.reflected, .w24⟩ [0x00] 0 = 0xFF000000

/-- R113: no variant's result depends on ARG above its container, nor the 24-bit ones' above bit 23. -/
def Obligations.HighArgBitsNeverMatter : Prop :=
  ∀ (T : Byte → Word) (v : Variant) (data : List Byte) (x y : Word),
    (trunc (container v) x = trunc (container v) y → foldV T v data x = foldV T v data y) ∧
    (v.width = .w24 → trunc 24 x = trunc 24 y → foldV T v data x = foldV T v data y)

/-- R114: over the all-zero table a fold is a pure shift, whatever the bytes, and it is 0 after C/8
bytes, for the 24-bit variants after 3. -/
def Obligations.ZeroTableFoldIsAShift : Prop :=
  ∀ (w : Width) (data : List Byte) (arg : Word),
    foldV (fun _ => 0) ⟨.normal, w⟩ data arg =
      finV ⟨.normal, w⟩
        (trunc (container ⟨.normal, w⟩) (initV ⟨.normal, w⟩ arg <<< (8 * data.length))) ∧
    foldV (fun _ => 0) ⟨.reflected, w⟩ data arg =
      initV ⟨.reflected, w⟩ arg >>> (8 * data.length) ∧
    (∀ d : Dir, (policy ⟨d, w⟩).width ≤ 8 * data.length →
      foldV (fun _ => 0) ⟨d, w⟩ data arg = 0)

/-! ## The assembler -/

/-- 30_encoding.md section 6 (R73, R74): what each line becomes once its text is read, and for each form
the operand ranges outside which it is refused; nop, finish, clrerr and read are never refused. That
`.word` refuses a CMD of more than 16 bits, and `ldtable` a table that has not 256 entries, is the
model's reading (log entry 10). -/
def Obligations.AssemblerWritesTheEncodings : Prop :=
  (∀ idx value : Nat, assemble (.twr idx value) = none ↔ ¬(idx < 256 ∧ value < 2 ^ 64)) ∧
  (∀ n : Nat, assemble (.tlen n) = none ↔ ¬n < 2 ^ 64) ∧
  (∀ (v : Variant) (a : Nat), assemble (.start v a) = none ↔ ¬a < 2 ^ 64) ∧
  (∀ b : Nat, assemble (.feed b) = none ↔ ¬b < 256) ∧
  (∀ cmd arg : Nat, assemble (.word cmd arg) = none ↔ ¬(cmd < 2 ^ 16 ∧ arg < 2 ^ 64)) ∧
  (∀ data : List Nat, assemble (.feeds data) = none ↔ ¬∀ b ∈ data, b < 256) ∧
  (∀ (v : Variant) (a : Nat) (data : List Nat),
    assemble (.fold v a data) = none ↔ ¬(a < 2 ^ 64 ∧ ∀ b ∈ data, b < 256)) ∧
  (∀ entries : List Nat,
    assemble (.ldtable entries) = none ↔ ¬(entries.length = 256 ∧ ∀ e ∈ entries, e < 2 ^ 64)) ∧
  assemble .nop = some [.command ⟨0x0000, 0⟩] ∧
  assemble .finish = some [.command ⟨0x5000, 0⟩] ∧
  assemble .clrerr = some [.command ⟨0x6000, 0⟩] ∧
  (∀ idx value : Nat, idx < 256 → value < 2 ^ 64 →
    assemble (.twr idx value) =
      some [.command ⟨0x1000 ||| BitVec.ofNat 16 idx, BitVec.ofNat 64 value⟩]) ∧
  (∀ n : Nat, n < 2 ^ 64 → assemble (.tlen n) = some [.command ⟨0x2000, BitVec.ofNat 64 n⟩]) ∧
  (∀ (v : Variant) (a : Nat), a < 2 ^ 64 →
    assemble (.start v a) =
      some [.command ⟨0x3000 ||| (cfgWord v).setWidth 16, BitVec.ofNat 64 a⟩]) ∧
  (∀ b : Nat, b < 256 → assemble (.feed b) = some [.command ⟨0x4000 ||| BitVec.ofNat 16 b, 0⟩]) ∧
  (∀ cmd arg : Nat, cmd < 2 ^ 16 → arg < 2 ^ 64 →
    assemble (.word cmd arg) = some [.command ⟨BitVec.ofNat 16 cmd, BitVec.ofNat 64 arg⟩]) ∧
  (∀ (data : List Nat), (∀ b ∈ data, b < 256) →
    assemble (.feeds data) =
      some (data.map (fun b => .command ⟨0x4000 ||| BitVec.ofNat 16 b, 0⟩))) ∧
  (∀ (v : Variant) (a : Nat) (data : List Nat), a < 2 ^ 64 → (∀ b ∈ data, b < 256) →
    ∃ first middle, assemble (.start v a) = some first ∧ assemble (.feeds data) = some middle ∧
      assemble (.fold v a data) = some (first ++ middle ++ [.command ⟨0x5000, 0⟩])) ∧
  (∀ entries : List Nat, entries.length = 256 → (∀ e ∈ entries, e < 2 ^ 64) →
    assemble (.ldtable entries) =
      some ((List.range 256).map (fun i =>
          .command ⟨0x1000 ||| BitVec.ofNat 16 i, BitVec.ofNat 64 (entries.getD i 0)⟩) ++
        [.command ⟨0x2000, 0x100⟩])) ∧
  assemble (.read .status) = some [.read 0x0] ∧ assemble (.read .result) = some [.read 0x1] ∧
  assemble (.read .tbllen) = some [.read 0x2] ∧ assemble (.read .cfg) = some [.read 0x3]
end

