-- ==== Sys2Proof/Laws/Datapath.lean ====
section
/-! SUPPORT. The laws of the datapath: bits and bounds of truncation, of the masks, and of `init_V`,
`step_V` and `fin_V`. -/

namespace Sys2Proof.Machine

@[simp] theorem trunc_getLsbD (n i : Nat) (v : Word) :
    (trunc n v).getLsbD i = (decide (i < n) && v.getLsbD i) := by
  simp only [trunc, BitVec.getLsbD_setWidth]
  by_cases h : i < 64
  · simp [h]
  · simp [h, BitVec.getLsbD_of_ge v i (by omega)]

theorem trunc_toNat (n : Nat) (v : Word) : (trunc n v).toNat = v.toNat % 2 ^ n := by
  simp only [trunc, BitVec.toNat_setWidth]
  exact Nat.mod_eq_of_lt (Nat.lt_of_le_of_lt (Nat.mod_le _ _) v.isLt)

theorem trunc_lt (n : Nat) (v : Word) : (trunc n v).toNat < 2 ^ n := by
  rw [trunc_toNat]
  exact Nat.mod_lt _ (Nat.two_pow_pos n)

/-- A value that fits is its own truncation. -/
theorem trunc_of_lt {n : Nat} {v : Word} (h : v.toNat < 2 ^ n) : trunc n v = v := by
  apply BitVec.eq_of_toNat_eq
  rw [trunc_toNat, Nat.mod_eq_of_lt h]

@[simp] theorem trunc_64 (v : Word) : trunc 64 v = v := trunc_of_lt v.isLt

@[simp] theorem trunc_trunc (n : Nat) (v : Word) : trunc n (trunc n v) = trunc n v :=
  trunc_of_lt (trunc_lt n v)

@[simp] theorem trunc_xor (n : Nat) (a b : Word) : trunc n (a ^^^ b) = trunc n a ^^^ trunc n b := by
  apply BitVec.eq_of_getLsbD_eq
  intro i _
  simp only [trunc_getLsbD, BitVec.getLsbD_xor]
  cases decide (i < n) <;> simp

/-- The 24-bit mask is truncation to 24 bits (41_fold.md R99). -/
theorem and_mask24 (v : Word) : v &&& mask24 = trunc 24 v := by
  apply BitVec.eq_of_toNat_eq
  rw [trunc_toNat, BitVec.toNat_and]
  exact Nat.and_two_pow_sub_one_eq_mod v.toNat 24

theorem container_le (v : Variant) : container v ≤ 64 := by
  obtain ⟨d, w⟩ := v
  cases d <;> cases w <;> decide

theorem applyMask_toNat_le (m : Option Word) (r : Word) : (applyMask m r).toNat ≤ r.toNat := by
  cases m with
  | none => exact Nat.le_refl _
  | some m => simpa [applyMask] using Nat.and_le_left

/-- `init_V` gives a value of the container (10_state.md R21). -/
theorem initV_lt (v : Variant) (a : Word) : (initV v a).toNat < 2 ^ container v :=
  Nat.lt_of_le_of_lt (applyMask_toNat_le _ _) (trunc_lt _ _)

/-- `fin_V` gives a value of the container. -/
theorem finV_lt {v : Variant} {r : Word} (h : r.toNat < 2 ^ container v) :
    (finV v r).toNat < 2 ^ container v :=
  Nat.lt_of_le_of_lt (applyMask_toNat_le _ _) h

theorem shifted_lt {v : Variant} {r : Word} (h : r.toNat < 2 ^ container v) :
    (shifted v r).toNat < 2 ^ container v := by
  unfold shifted
  split
  · exact trunc_lt _ _
  · refine Nat.lt_of_le_of_lt ?_ h
    rw [BitVec.toNat_ushiftRight]
    exact Nat.shiftRight_le _ _

/-- `step_V` gives a value of the container (41_fold.md R88, R89). -/
theorem stepV_lt {v : Variant} {r : Word} (entry : Word) (h : r.toNat < 2 ^ container v) :
    (stepV v entry r).toNat < 2 ^ container v := by
  rw [stepV, BitVec.toNat_xor]
  exact Nat.xor_lt_two_pow (trunc_lt _ _) (shifted_lt h)

theorem foldBytes_nil (T : Byte → Word) (v : Variant) (r : Word) : foldBytes T v r [] = r := rfl

theorem foldBytes_cons (T : Byte → Word) (v : Variant) (r : Word) (b : Byte) (data : List Byte) :
    foldBytes T v r (b :: data) = foldBytes T v (foldByte T v r b) data := rfl

theorem foldBytes_append (T : Byte → Word) (v : Variant) (r : Word) (as bs : List Byte) :
    foldBytes T v r (as ++ bs) = foldBytes T v (foldBytes T v r as) bs := List.foldl_append

/-- An induction over a fold, packaged once: what one byte keeps, the whole fold keeps. -/
theorem foldBytes_induct {T : Byte → Word} {v : Variant} {P : Word → Prop}
    (keep : ∀ r b, P r → P (foldByte T v r b)) (data : List Byte) :
    ∀ {r}, P r → P (foldBytes T v r data) := by
  induction data with
  | nil => exact fun h => h
  | cons b rest ih => exact fun h => ih (keep _ b h)

/-- Two folds run in step, packaged once: a relation one byte keeps, both whole folds keep. -/
theorem foldBytes_related {T U : Byte → Word} {v w : Variant} {R : Word → Word → Prop}
    (keep : ∀ r q b, R r q → R (foldByte T v r b) (foldByte U w q b)) (data : List Byte) :
    ∀ {r q}, R r q → R (foldBytes T v r data) (foldBytes U w q data) := by
  induction data with
  | nil => exact fun h => h
  | cons b rest ih => exact fun h => ih (keep _ _ b h)

theorem foldBytes_lt (T : Byte → Word) {v : Variant} {r : Word} (data : List Byte)
    (h : r.toNat < 2 ^ container v) : (foldBytes T v r data).toNat < 2 ^ container v :=
  foldBytes_induct (P := fun r => r.toNat < 2 ^ container v) (fun _ _ h => stepV_lt _ h) data h

end Sys2Proof.Machine
end

