-- ==== Sys2Proof/Laws/Decode.lean ====
section
/-! SUPPORT. The decoder in closed form: one comparison for each row of the opcode map, with the two
rows that carry a byte compared by CMD[15:8]. -/

namespace Sys2Proof

/-- A command word is its high byte and its low byte. -/
theorem cmd_bytes (cmd : BitVec 16) : cmd = cmd.extractLsb' 8 8 ++ lowByte cmd := by
  apply BitVec.eq_of_getLsbD_eq
  intro i hi
  simp only [lowByte, BitVec.getLsbD_append, BitVec.getLsbD_extractLsb']
  rcases Nat.lt_or_ge i 8 with h | h
  · simp [h]
  · simp [show ¬ i < 8 by omega, show i - 8 < 8 by omega, show 8 + (i - 8) = i by omega]

/-- A row with mask 0xFFFF matches its own CMD alone. -/
theorem accepts_exact (cmd pattern : BitVec 16) (build : BitVec 16 → Word → Instr) :
    Row.accepts ⟨pattern, 0xFFFF#16, build⟩ cmd = decide (cmd = pattern) := by
  have h : cmd &&& 0xFFFF#16 = cmd := BitVec.and_allOnes
  rw [Row.accepts, h]
  exact beq_eq_decide cmd pattern

/-- A row with mask 0xFF00 matches the CMDs with its CMD[15:8]. -/
theorem accepts_high (cmd : BitVec 16) (high : Byte) (build : BitVec 16 → Word → Instr) :
    Row.accepts ⟨high ++ 0#8, 0xFF00#16, build⟩ cmd = decide (cmd.extractLsb' 8 8 = high) := by
  have h : cmd &&& 0xFF00#16 = cmd.extractLsb' 8 8 ++ 0#8 := by
    conv => lhs; rw [cmd_bytes cmd, show 0xFF00#16 = 0xFF#8 ++ 0#8 by decide, BitVec.and_append]
    have ones : cmd.extractLsb' 8 8 &&& 0xFF#8 = cmd.extractLsb' 8 8 := BitVec.and_allOnes
    rw [ones, BitVec.and_zero]
  rw [Row.accepts, h]
  by_cases e : cmd.extractLsb' 8 8 = high
  · simp [e]
  · have ne : cmd.extractLsb' 8 8 ++ 0#8 ≠ high ++ 0#8 := by
      intro eq
      apply e
      apply BitVec.eq_of_getLsbD_eq
      intro i hi
      have bit : (cmd.extractLsb' 8 8 ++ 0#8).getLsbD (i + 8) = (high ++ 0#8).getLsbD (i + 8) :=
        congrArg (fun x => x.getLsbD (i + 8)) eq
      rw [BitVec.getLsbD_append, BitVec.getLsbD_append] at bit
      simpa [BitVec.getLsbD_extractLsb', hi] using bit
    simp [e, ne]

/-- A field of a CMD, as a number: fields turn into division and remainder, which omega decides. -/
theorem field_toNat (cmd : BitVec 16) (low len : Nat) :
    (cmd.extractLsb' low len).toNat = cmd.toNat / 2 ^ low % 2 ^ len := by
  rw [BitVec.extractLsb'_toNat, Nat.shiftRight_eq_div_pow]

theorem field_eq (cmd : BitVec 16) (low len k : Nat) :
    cmd.extractLsb' low len = BitVec.ofNat len k ↔ cmd.toNat / 2 ^ low % 2 ^ len = k % 2 ^ len := by
  rw [← BitVec.toNat_inj, field_toNat, BitVec.toNat_ofNat]

theorem cmd_eq (cmd : BitVec 16) (k : Nat) :
    cmd = BitVec.ofNat 16 k ↔ cmd.toNat = k % 2 ^ 16 := by
  rw [← BitVec.toNat_inj, BitVec.toNat_ofNat]

/-- The decoder, row by row (30_encoding.md R67, R68). -/
theorem decode_eq (c : Command) :
    decode c =
      if c.cmd = 0x0000#16 then .row .nop
      else if c.cmd.extractLsb' 8 8 = 0x10#8 then .row (.twr (lowByte c.cmd) c.arg)
      else if c.cmd = 0x2000#16 then .row (.tlen c.arg)
      else if c.cmd = 0x3000#16 then .row (.startN8 c.arg)
      else if c.cmd = 0x3001#16 then .row (.startN16 c.arg)
      else if c.cmd = 0x3002#16 then .row (.startN24 c.arg)
      else if c.cmd = 0x3003#16 then .row (.startN32 c.arg)
      else if c.cmd = 0x3004#16 then .row (.startN64 c.arg)
      else if c.cmd = 0x3008#16 then .row (.startR8 c.arg)
      else if c.cmd = 0x3009#16 then .row (.startR16 c.arg)
      else if c.cmd = 0x300A#16 then .row (.startR24 c.arg)
      else if c.cmd = 0x300B#16 then .row (.startR32 c.arg)
      else if c.cmd = 0x300C#16 then .row (.startR64 c.arg)
      else if c.cmd.extractLsb' 8 8 = 0x40#8 then .row (.feed (lowByte c.cmd))
      else if c.cmd = 0x5000#16 then .row .finish
      else if c.cmd = 0x6000#16 then .row .clrerr
      else .illegal := by
  have twr := fun build => accepts_high c.cmd 0x10#8 build
  have feed := fun build => accepts_high c.cmd 0x40#8 build
  rw [show (0x10#8 ++ 0#8 : BitVec (8 + 8)) = 0x1000#16 by decide] at twr
  rw [show (0x40#8 ++ 0#8 : BitVec (8 + 8)) = 0x4000#16 by decide] at feed
  simp only [decode, rows, decodeWith, accepts_exact, twr, feed, decide_eq_true_eq]

theorem unless_row (p : Prop) [Decidable p] (i : Instr) (d : Decoded) :
    (if p then .row i else d) = .illegal ↔ ¬ p ∧ d = .illegal := by
  by_cases h : p <;> simp [h]

/-- A row of the chain is the answer, or it does not match and the rest answers. -/
theorem row_or_later (p : Prop) [Decidable p] (i j : Instr) (d : Decoded) :
    (if p then .row i else d) = .row j ↔ p ∧ i = j ∨ ¬ p ∧ d = .row j := by
  by_cases h : p <;> simp [h]

/-- The commands that match no row, by number. -/
theorem decode_illegal_iff (c : Command) :
    decode c = .illegal ↔
      c.cmd.toNat ≠ 0x0000 ∧ c.cmd.toNat / 256 ≠ 0x10 ∧ c.cmd.toNat ≠ 0x2000 ∧
      ¬ (0x3000 ≤ c.cmd.toNat ∧ c.cmd.toNat ≤ 0x3004) ∧
      ¬ (0x3008 ≤ c.cmd.toNat ∧ c.cmd.toNat ≤ 0x300C) ∧
      c.cmd.toNat / 256 ≠ 0x40 ∧ c.cmd.toNat ≠ 0x5000 ∧ c.cmd.toNat ≠ 0x6000 := by
  have bound := c.cmd.isLt
  rw [decode_eq]
  simp only [cmd_eq, field_eq, unless_row, and_true]
  omega

end Sys2Proof
end

