-- ==== Sys2Proof/Laws/Memory.lean ====
section
/-! SUPPORT. The laws of the table RAM: what a write does to every read, and that a write keeps the
canonical form. -/

namespace Sys2Proof.Machine

@[simp] theorem memory_read_nil (i : Nat) : Memory.read [] i = none := rfl

/-- A read after a write: the written value at the written index, and the old contents elsewhere. -/
theorem memory_read_write (m : Memory) (i j : Nat) (v : Word) :
    (m.write i v).read j = if j = i then some v else m.read j := by
  induction m with
  | nil => simp [Memory.write, Memory.read]
  | cons cell rest ih =>
    obtain ⟨k, w⟩ := cell
    simp only [Memory.write]
    split
    · simp [Memory.read]
    · split
      · rename_i hik
        subst hik
        by_cases hj : j = i <;> simp [Memory.read, hj]
      · rename_i hik
        by_cases hj : j = k
        · subst hj
          simp [Memory.read, Ne.symm hik]
        · simp [Memory.read, hj, ih]

@[simp] theorem memory_read_write_same (m : Memory) (i : Nat) (v : Word) :
    (m.write i v).read i = some v := by simp [memory_read_write]

theorem memory_read_write_other (m : Memory) {i j : Nat} (v : Word) (h : j ≠ i) :
    (m.write i v).read j = m.read j := by simp [memory_read_write, h]

/-- The indices listed after a write are the written one and those listed before. -/
theorem memory_mem_write {m : Memory} {i : Nat} {v : Word} {cell : Nat × Word}
    (h : cell ∈ m.write i v) : cell = (i, v) ∨ cell ∈ m := by
  induction m with
  | nil => simpa [Memory.write] using h
  | cons head rest ih =>
    obtain ⟨k, w⟩ := head
    simp only [Memory.write] at h
    split at h
    · simpa using h
    · split at h
      · rcases List.mem_cons.mp h with h | h
        · exact .inl h
        · exact .inr (List.mem_cons_of_mem _ h)
      · rcases List.mem_cons.mp h with h | h
        · exact .inr (h ▸ List.mem_cons_self)
        · exact (ih h).imp id (List.mem_cons_of_mem _)

theorem memory_wf_nil : Memory.wf [] := by simp [Memory.wf]

theorem memory_pairwise_write {m : Memory} (i : Nat) (v : Word)
    (h : m.Pairwise (fun a b => a.1 < b.1)) :
    (m.write i v).Pairwise (fun a b => a.1 < b.1) := by
  induction m with
  | nil => simp [Memory.write]
  | cons head rest ih =>
    obtain ⟨k, w⟩ := head
    obtain ⟨hhead, hrest⟩ := List.pairwise_cons.mp h
    simp only [Memory.write]
    split
    · rename_i hik
      refine List.pairwise_cons.mpr ⟨fun c hc => ?_, h⟩
      rcases List.mem_cons.mp hc with rfl | hc
      · exact hik
      · exact Nat.lt_trans hik (hhead c hc)
    · split
      · rename_i hik
        subst hik
        exact List.pairwise_cons.mpr ⟨hhead, hrest⟩
      · refine List.pairwise_cons.mpr ⟨fun c hc => ?_, ih hrest⟩
        rcases memory_mem_write hc with rfl | hc
        · show k < i
          omega
        · exact hhead c hc

/-- A write at an index of the table keeps the canonical form. -/
theorem memory_wf_write {m : Memory} {i : Nat} (v : Word) (h : m.wf) (hi : i < Config.tableEntries) :
    (m.write i v).wf := by
  refine ⟨memory_pairwise_write i v h.1, fun c hc => ?_⟩
  rcases memory_mem_write hc with rfl | hc
  · exact hi
  · exact h.2 c hc

end Sys2Proof.Machine
end

