-- ==== Sys2Proof/Laws/State.lean ====
section
/-! SUPPORT. What each named update of the state does to each field. Every one holds by rfl and is a
simp lemma, so no later proof unfolds a record update. -/

namespace Sys2Proof.Machine

variable (s : State)

@[simp] theorem accept_crc : (accept s).crc = s.crc := rfl
@[simp] theorem accept_cfg : (accept s).cfg = s.cfg := rfl
@[simp] theorem accept_active : (accept s).active = s.active := rfl
@[simp] theorem accept_tbllen : (accept s).tbllen = s.tbllen := rfl
@[simp] theorem accept_result : (accept s).result = s.result := rfl
@[simp] theorem accept_err : (accept s).err = ErrCode.ok.bits := rfl
@[simp] theorem accept_sticky : (accept s).sticky = s.sticky := rfl
@[simp] theorem accept_table : (accept s).table = s.table := rfl
@[simp] theorem accept_pending : (accept s).pending = s.pending := rfl
@[simp] theorem accept_reads : (accept s).reads = s.reads := rfl

@[simp] theorem reject_crc (code : ErrCode) : (reject code s).crc = s.crc := rfl
@[simp] theorem reject_cfg (code : ErrCode) : (reject code s).cfg = s.cfg := rfl
@[simp] theorem reject_active (code : ErrCode) : (reject code s).active = s.active := rfl
@[simp] theorem reject_tbllen (code : ErrCode) : (reject code s).tbllen = s.tbllen := rfl
@[simp] theorem reject_result (code : ErrCode) : (reject code s).result = s.result := rfl
@[simp] theorem reject_err (code : ErrCode) : (reject code s).err = code.bits := rfl
@[simp] theorem reject_sticky (code : ErrCode) : (reject code s).sticky = true := rfl
@[simp] theorem reject_table (code : ErrCode) : (reject code s).table = s.table := rfl
@[simp] theorem reject_pending (code : ErrCode) : (reject code s).pending = s.pending := rfl
@[simp] theorem reject_reads (code : ErrCode) : (reject code s).reads = s.reads := rfl

@[simp] theorem writeEntry_crc (idx : Byte) (value : Word) : (writeEntry idx value s).crc = s.crc := rfl
@[simp] theorem writeEntry_cfg (idx : Byte) (value : Word) : (writeEntry idx value s).cfg = s.cfg := rfl
@[simp] theorem writeEntry_active (idx : Byte) (value : Word) : (writeEntry idx value s).active = s.active := rfl
@[simp] theorem writeEntry_tbllen (idx : Byte) (value : Word) : (writeEntry idx value s).tbllen = s.tbllen := rfl
@[simp] theorem writeEntry_result (idx : Byte) (value : Word) : (writeEntry idx value s).result = s.result := rfl
@[simp] theorem writeEntry_err (idx : Byte) (value : Word) : (writeEntry idx value s).err = s.err := rfl
@[simp] theorem writeEntry_sticky (idx : Byte) (value : Word) : (writeEntry idx value s).sticky = s.sticky := rfl
@[simp] theorem writeEntry_table (idx : Byte) (value : Word) : (writeEntry idx value s).table = s.table.write idx.toNat value := rfl
@[simp] theorem writeEntry_pending (idx : Byte) (value : Word) : (writeEntry idx value s).pending = s.pending := rfl
@[simp] theorem writeEntry_reads (idx : Byte) (value : Word) : (writeEntry idx value s).reads = s.reads := rfl

@[simp] theorem setLength_crc (count : Word) : (setLength count s).crc = s.crc := rfl
@[simp] theorem setLength_cfg (count : Word) : (setLength count s).cfg = s.cfg := rfl
@[simp] theorem setLength_active (count : Word) : (setLength count s).active = s.active := rfl
@[simp] theorem setLength_tbllen (count : Word) : (setLength count s).tbllen = count := rfl
@[simp] theorem setLength_result (count : Word) : (setLength count s).result = s.result := rfl
@[simp] theorem setLength_err (count : Word) : (setLength count s).err = s.err := rfl
@[simp] theorem setLength_sticky (count : Word) : (setLength count s).sticky = s.sticky := rfl
@[simp] theorem setLength_table (count : Word) : (setLength count s).table = s.table := rfl
@[simp] theorem setLength_pending (count : Word) : (setLength count s).pending = s.pending := rfl
@[simp] theorem setLength_reads (count : Word) : (setLength count s).reads = s.reads := rfl

@[simp] theorem latch_crc (v : Variant) (init : Word) : (latch v init s).crc = initV v init := rfl
@[simp] theorem latch_cfg (v : Variant) (init : Word) : (latch v init s).cfg = v := rfl
@[simp] theorem latch_active (v : Variant) (init : Word) : (latch v init s).active = true := rfl
@[simp] theorem latch_tbllen (v : Variant) (init : Word) : (latch v init s).tbllen = s.tbllen := rfl
@[simp] theorem latch_result (v : Variant) (init : Word) : (latch v init s).result = s.result := rfl
@[simp] theorem latch_err (v : Variant) (init : Word) : (latch v init s).err = s.err := rfl
@[simp] theorem latch_sticky (v : Variant) (init : Word) : (latch v init s).sticky = s.sticky := rfl
@[simp] theorem latch_table (v : Variant) (init : Word) : (latch v init s).table = s.table := rfl
@[simp] theorem latch_pending (v : Variant) (init : Word) : (latch v init s).pending = s.pending := rfl
@[simp] theorem latch_reads (v : Variant) (init : Word) : (latch v init s).reads = s.reads := rfl

@[simp] theorem publish_crc : (publish s).crc = s.crc := rfl
@[simp] theorem publish_cfg : (publish s).cfg = s.cfg := rfl
@[simp] theorem publish_active : (publish s).active = false := rfl
@[simp] theorem publish_tbllen : (publish s).tbllen = s.tbllen := rfl
@[simp] theorem publish_result : (publish s).result = finV s.cfg s.crc := rfl
@[simp] theorem publish_err : (publish s).err = s.err := rfl
@[simp] theorem publish_sticky : (publish s).sticky = s.sticky := rfl
@[simp] theorem publish_table : (publish s).table = s.table := rfl
@[simp] theorem publish_pending : (publish s).pending = s.pending := rfl
@[simp] theorem publish_reads : (publish s).reads = s.reads := rfl

@[simp] theorem clearSticky_crc : (clearSticky s).crc = s.crc := rfl
@[simp] theorem clearSticky_cfg : (clearSticky s).cfg = s.cfg := rfl
@[simp] theorem clearSticky_active : (clearSticky s).active = s.active := rfl
@[simp] theorem clearSticky_tbllen : (clearSticky s).tbllen = s.tbllen := rfl
@[simp] theorem clearSticky_result : (clearSticky s).result = s.result := rfl
@[simp] theorem clearSticky_err : (clearSticky s).err = s.err := rfl
@[simp] theorem clearSticky_sticky : (clearSticky s).sticky = false := rfl
@[simp] theorem clearSticky_table : (clearSticky s).table = s.table := rfl
@[simp] theorem clearSticky_pending : (clearSticky s).pending = s.pending := rfl
@[simp] theorem clearSticky_reads : (clearSticky s).reads = s.reads := rfl

@[simp] theorem hostRead_crc (addr : BitVec 4) : (hostRead addr s).crc = s.crc := rfl
@[simp] theorem hostRead_cfg (addr : BitVec 4) : (hostRead addr s).cfg = s.cfg := rfl
@[simp] theorem hostRead_active (addr : BitVec 4) : (hostRead addr s).active = s.active := rfl
@[simp] theorem hostRead_tbllen (addr : BitVec 4) : (hostRead addr s).tbllen = s.tbllen := rfl
@[simp] theorem hostRead_result (addr : BitVec 4) : (hostRead addr s).result = s.result := rfl
@[simp] theorem hostRead_err (addr : BitVec 4) : (hostRead addr s).err = s.err := rfl
@[simp] theorem hostRead_sticky (addr : BitVec 4) : (hostRead addr s).sticky = s.sticky := rfl
@[simp] theorem hostRead_table (addr : BitVec 4) : (hostRead addr s).table = s.table := rfl
@[simp] theorem hostRead_pending (addr : BitVec 4) : (hostRead addr s).pending = s.pending := rfl
@[simp] theorem hostRead_reads (addr : BitVec 4) : (hostRead addr s).reads = s.reads ++ [readPort addr s] := rfl

@[simp] theorem resetBlock_crc : (resetBlock s).crc = State.reset.crc := rfl
@[simp] theorem resetBlock_cfg : (resetBlock s).cfg = State.reset.cfg := rfl
@[simp] theorem resetBlock_active : (resetBlock s).active = State.reset.active := rfl
@[simp] theorem resetBlock_tbllen : (resetBlock s).tbllen = State.reset.tbllen := rfl
@[simp] theorem resetBlock_result : (resetBlock s).result = State.reset.result := rfl
@[simp] theorem resetBlock_err : (resetBlock s).err = State.reset.err := rfl
@[simp] theorem resetBlock_sticky : (resetBlock s).sticky = State.reset.sticky := rfl
@[simp] theorem resetBlock_table : (resetBlock s).table = State.reset.table := rfl
@[simp] theorem resetBlock_pending : (resetBlock s).pending = s.pending := rfl
@[simp] theorem resetBlock_reads : (resetBlock s).reads = s.reads := rfl

end Sys2Proof.Machine
end

