-- ==== Sys2Proof/Laws/Ops.lean ====
section
/-! SUPPORT. One lemma for each shared operation and for the dispatch, the port and the step, saying
all it can do. Provers cite these and do not unfold the operations. -/

namespace Sys2Proof.Machine

/-- All that TWR and TLEN can do: rejected with LOCKED in a fold, else their effect. -/
theorem whileIdle_cases (effect : State → State) (s : State) :
    (s.active = true ∧ whileIdle effect s = reject .locked s) ∨
    (s.active = false ∧ whileIdle effect s = accept (effect s)) := by
  cases h : s.active <;> simp [whileIdle, h]

/-- All that START can do: two rejections, and the accepted start of a fold. -/
theorem startFold_cases (v : Variant) (init : Word) (s : State) :
    (s.active = true ∧ startFold v init s = reject .sequence s) ∨
    (s.active = false ∧ s.tbllen ≠ Config.requiredLength ∧
      startFold v init s = reject .invalidTable s) ∨
    (s.active = false ∧ s.tbllen = Config.requiredLength ∧
      startFold v init s = accept (latch v init s)) := by
  cases h : s.active
  · by_cases hl : s.tbllen = Config.requiredLength <;> simp [startFold, h, hl]
  · simp [startFold, h]

/-- All that FEED can do: rejected out of a fold, a step of the fold, or the fault of R43. -/
theorem feedByte_cases (b : Byte) (s : State) :
    (s.active = false ∧ feedByte b s = .next (reject .sequence s)) ∨
    (∃ entry, s.active = true ∧ s.table.read (tableIndex s.cfg s.crc b).toNat = some entry ∧
      feedByte b s = .next (accept { s with crc := stepV s.cfg entry s.crc })) ∨
    (s.active = true ∧ s.table.read (tableIndex s.cfg s.crc b).toNat = none ∧
      feedByte b s = .fault (.unwrittenEntry (tableIndex s.cfg s.crc b))) := by
  cases h : s.active
  · simp [feedByte, h]
  · cases hr : s.table.read (tableIndex s.cfg s.crc b).toNat <;> simp [feedByte, h, hr]

/-- All that FINISH can do: rejected out of a fold, else RESULT is published. -/
theorem finishFold_cases (s : State) :
    (s.active = false ∧ finishFold s = reject .sequence s) ∨
    (s.active = true ∧ finishFold s = accept (publish s)) := by
  cases h : s.active <;> simp [finishFold, h]

/-- The ten START commands are the operation of R102 at the ten variants. -/
theorem exec_startOf (v : Variant) (init : Word) (s : State) :
    exec (startOf v init) s = .next (startFold v init s) := by
  obtain ⟨d, w⟩ := v
  cases d <;> cases w <;> rfl

/-- Every command is one of seven shapes. -/
theorem instr_shapes (i : Instr) :
    i = .nop ∨ i = .clrerr ∨ i = .finish ∨ (∃ b, i = .feed b) ∨ (∃ v init, i = startOf v init) ∨
      (∃ idx value, i = .twr idx value) ∨ (∃ count, i = .tlen count) := by
  cases i with
  | nop => exact .inl rfl
  | clrerr => exact .inr (.inl rfl)
  | finish => exact .inr (.inr (.inl rfl))
  | feed b => exact .inr (.inr (.inr (.inl ⟨b, rfl⟩)))
  | twr idx value => exact .inr (.inr (.inr (.inr (.inr (.inl ⟨idx, value, rfl⟩)))))
  | tlen count => exact .inr (.inr (.inr (.inr (.inr (.inr ⟨count, rfl⟩)))))
  | startN8 a => exact .inr (.inr (.inr (.inr (.inl ⟨⟨.normal, .w8⟩, a, rfl⟩))))
  | startN16 a => exact .inr (.inr (.inr (.inr (.inl ⟨⟨.normal, .w16⟩, a, rfl⟩))))
  | startN24 a => exact .inr (.inr (.inr (.inr (.inl ⟨⟨.normal, .w24⟩, a, rfl⟩))))
  | startN32 a => exact .inr (.inr (.inr (.inr (.inl ⟨⟨.normal, .w32⟩, a, rfl⟩))))
  | startN64 a => exact .inr (.inr (.inr (.inr (.inl ⟨⟨.normal, .w64⟩, a, rfl⟩))))
  | startR8 a => exact .inr (.inr (.inr (.inr (.inl ⟨⟨.reflected, .w8⟩, a, rfl⟩))))
  | startR16 a => exact .inr (.inr (.inr (.inr (.inl ⟨⟨.reflected, .w16⟩, a, rfl⟩))))
  | startR24 a => exact .inr (.inr (.inr (.inr (.inl ⟨⟨.reflected, .w24⟩, a, rfl⟩))))
  | startR32 a => exact .inr (.inr (.inr (.inr (.inl ⟨⟨.reflected, .w32⟩, a, rfl⟩))))
  | startR64 a => exact .inr (.inr (.inr (.inr (.inl ⟨⟨.reflected, .w64⟩, a, rfl⟩))))

/-- Everything a command can do when it ends in a next state: nothing but the two status fields where
it is rejected, else its own effect. -/
theorem exec_cases {i : Instr} {s t : State} (h : exec i s = .next t) :
    (∃ code, (code = .locked ∨ code = .sequence ∨ code = .invalidTable) ∧ t = reject code s) ∨
    (i = .nop ∧ t = accept s) ∨
    (i = .clrerr ∧ t = accept (clearSticky s)) ∨
    (i = .finish ∧ s.active = true ∧ t = accept (publish s)) ∨
    (∃ b entry, i = .feed b ∧ s.active = true ∧
      s.table.read (tableIndex s.cfg s.crc b).toNat = some entry ∧
      t = accept { s with crc := stepV s.cfg entry s.crc }) ∨
    (∃ v init, i = startOf v init ∧ s.active = false ∧ s.tbllen = Config.requiredLength ∧
      t = accept (latch v init s)) ∨
    (∃ idx value, i = .twr idx value ∧ s.active = false ∧ t = accept (writeEntry idx value s)) ∨
    (∃ count, i = .tlen count ∧ s.active = false ∧ t = accept (setLength count s)) := by
  have rejected : ∀ code, (code = .locked ∨ code = .sequence ∨ code = .invalidTable) →
      t = reject code s → ∃ code, (code = .locked ∨ code = .sequence ∨ code = .invalidTable) ∧
        t = reject code s := fun code hc ht => ⟨code, hc, ht⟩
  rcases instr_shapes i with rfl | rfl | rfl | ⟨b, rfl⟩ | ⟨v, a, rfl⟩ | ⟨idx, value, rfl⟩ | ⟨n, rfl⟩
  · injection h with h
    exact .inr (.inl ⟨rfl, h.symm⟩)
  · injection h with h
    exact .inr (.inr (.inl ⟨rfl, h.symm⟩))
  · injection h with h
    rcases finishFold_cases s with ⟨_, e⟩ | ⟨ha, e⟩
    · exact .inl (rejected .sequence (by simp) (h.symm.trans e))
    · exact .inr (.inr (.inr (.inl ⟨rfl, ha, h.symm.trans e⟩)))
  · change feedByte b s = .next t at h
    rcases feedByte_cases b s with ⟨_, e⟩ | ⟨entry, ha, hr, e⟩ | ⟨_, _, e⟩
    · rw [e] at h
      injection h with h
      exact .inl (rejected .sequence (by simp) h.symm)
    · rw [e] at h
      injection h with h
      exact .inr (.inr (.inr (.inr (.inl ⟨b, entry, rfl, ha, hr, h.symm⟩))))
    · rw [e] at h
      cases h
  · rw [exec_startOf] at h
    injection h with h
    rcases startFold_cases v a s with ⟨_, e⟩ | ⟨_, _, e⟩ | ⟨ha, hl, e⟩
    · exact .inl (rejected .sequence (by simp) (h.symm.trans e))
    · exact .inl (rejected .invalidTable (by simp) (h.symm.trans e))
    · exact .inr (.inr (.inr (.inr (.inr (.inl ⟨v, a, rfl, ha, hl, h.symm.trans e⟩)))))
  · injection h with h
    rcases whileIdle_cases (writeEntry idx value) s with ⟨_, e⟩ | ⟨ha, e⟩
    · exact .inl (rejected .locked (by simp) (h.symm.trans e))
    · exact .inr (.inr (.inr (.inr (.inr (.inr (.inl ⟨idx, value, rfl, ha, h.symm.trans e⟩))))))
  · injection h with h
    rcases whileIdle_cases (setLength n) s with ⟨_, e⟩ | ⟨ha, e⟩
    · exact .inl (rejected .locked (by simp) (h.symm.trans e))
    · exact .inr (.inr (.inr (.inr (.inr (.inr (.inr ⟨n, rfl, ha, h.symm.trans e⟩))))))

theorem issue_row {c : Command} {i : Instr} (h : decode c = .row i) (s : State) :
    issue c s = exec i s := by simp [issue, h]

theorem issue_illegal {c : Command} (h : decode c = .illegal) (s : State) :
    issue c s = .next (reject .illegal s) := by simp [issue, h]

/-- With nothing pending a step changes nothing. -/
theorem step_idle {s : State} (h : s.pending = []) : step s = .next s := by simp [step, takeNext, h]

/-- A step performs the first pending action on the state without it. -/
theorem step_cons {s : State} {a : HostAction} {rest : List HostAction}
    (h : s.pending = a :: rest) : step s = perform a { s with pending := rest } := by
  simp [step, takeNext, h]

/-- Everything a step can do when it ends in a next state. -/
theorem step_cases {s t : State} (h : step s = .next t) :
    (s.pending = [] ∧ t = s) ∨
    (∃ addr rest, s.pending = .read addr :: rest ∧ t = hostRead addr { s with pending := rest }) ∨
    (∃ rest, s.pending = .reset :: rest ∧ t = resetBlock { s with pending := rest }) ∨
    (∃ c rest, s.pending = .command c :: rest ∧ decode c = .illegal ∧
      t = reject .illegal { s with pending := rest }) ∨
    (∃ c rest i, s.pending = .command c :: rest ∧ decode c = .row i ∧
      exec i { s with pending := rest } = .next t) := by
  cases hp : s.pending with
  | nil =>
    rw [step_idle hp] at h
    injection h with h
    exact .inl ⟨rfl, h.symm⟩
  | cons a rest =>
    rw [step_cons hp] at h
    cases a with
    | read addr =>
      injection h with h
      exact .inr (.inl ⟨addr, rest, rfl, h.symm⟩)
    | reset =>
      injection h with h
      exact .inr (.inr (.inl ⟨rest, rfl, h.symm⟩))
    | command c =>
      change issue c _ = .next t at h
      cases hd : decode c with
      | illegal =>
        rw [issue_illegal hd] at h
        injection h with h
        exact .inr (.inr (.inr (.inl ⟨c, rest, rfl, hd, h.symm⟩)))
      | row i =>
        rw [issue_row hd] at h
        exact .inr (.inr (.inr (.inr ⟨c, rest, i, rfl, hd, h⟩)))

end Sys2Proof.Machine
end

