-- ==== Sys2Proof/Laws/PerInstr.lean ====
section
/-! SUPPORT. Per-instruction lemmas: the words of a command decode to that command. -/

namespace Sys2Proof.Laws

theorem decodeWith_append {pre post : List Row} {r : Row} {c : Command}
    (before : ∀ p ∈ pre, p.accepts c.cmd = false) (here : r.accepts c.cmd = true) :
    decodeWith (pre ++ r :: post) c = .row (r.build c.cmd c.arg) := by
  induction pre with
  | nil => simp [decodeWith, here]
  | cons p rest ih =>
    simp only [List.forall_mem_cons] at before
    simp [decodeWith, before.1, ih before.2]

/-- A command decodes to the row it matches when no earlier row matches it. -/
theorem decode_at (cmd : BitVec 16) {arg : Word} (n : Nat) {r : Row}
    (at_n : rows.drop n = r :: rows.drop (n + 1))
    (before : ∀ p ∈ rows.take n, p.accepts cmd = false) (here : r.accepts cmd = true) :
    decode ⟨cmd, arg⟩ = .row (r.build cmd arg) := by
  have h := decodeWith_append (c := ⟨cmd, arg⟩) (post := rows.drop (n + 1)) before here
  rwa [← at_n, List.take_append_drop] at h

/-- The row of TWR is the one every `0x1000 OR idx` matches, and no bit of the index is lost. -/
theorem twr_word (idx : Byte) (arg : Word) :
    decode ⟨0x1000#16 ||| idx.setWidth 16, arg⟩ = .row (.twr idx arg) := by
  have h : ∀ x : BitVec 8,
      (∀ p ∈ rows.take 1, p.accepts (0x1000#16 ||| x.setWidth 16) = false) ∧
      Row.accepts ⟨0x1000#16, 0xFF00#16, fun cmd arg => .twr (lowByte cmd) arg⟩
        (0x1000#16 ||| x.setWidth 16) = true ∧
      lowByte (0x1000#16 ||| x.setWidth 16) = x := by decide
  obtain ⟨before, here, back⟩ := h idx
  exact (decode_at _ 1 rfl before here).trans (congrArg (fun x => Decoded.row (.twr x arg)) back)

/-- The row of FEED is the one every `0x4000 OR byte` matches, and no bit of the byte is lost. -/
theorem feed_word (byte : Byte) (arg : Word) :
    decode ⟨0x4000#16 ||| byte.setWidth 16, arg⟩ = .row (.feed byte) := by
  have h : ∀ x : BitVec 8,
      (∀ p ∈ rows.take 13, p.accepts (0x4000#16 ||| x.setWidth 16) = false) ∧
      Row.accepts ⟨0x4000#16, 0xFF00#16, fun cmd _ => .feed (lowByte cmd)⟩
        (0x4000#16 ||| x.setWidth 16) = true ∧
      lowByte (0x4000#16 ||| x.setWidth 16) = x := by decide
  obtain ⟨before, here, back⟩ := h byte
  exact (decode_at _ 13 rfl before here).trans (congrArg (fun x => Decoded.row (.feed x)) back)

namespace RoundTrip

/-- Decoding a command's own words gives the command back. -/
def Statement (i : Instr) : Prop := decode (encode i) = .row i

theorem nop : Statement .nop :=
  decode_at 0x0000#16 0 rfl (by decide) (by decide)

theorem twr (idx : Byte) (value : Word) : Statement (.twr idx value) := twr_word idx value

theorem tlen (count : Word) : Statement (.tlen count) :=
  decode_at 0x2000#16 2 rfl (by decide) (by decide)

theorem startN8 (init : Word) : Statement (.startN8 init) :=
  decode_at 0x3000#16 3 rfl (by decide) (by decide)

theorem startN16 (init : Word) : Statement (.startN16 init) :=
  decode_at 0x3001#16 4 rfl (by decide) (by decide)

theorem startN24 (init : Word) : Statement (.startN24 init) :=
  decode_at 0x3002#16 5 rfl (by decide) (by decide)

theorem startN32 (init : Word) : Statement (.startN32 init) :=
  decode_at 0x3003#16 6 rfl (by decide) (by decide)

theorem startN64 (init : Word) : Statement (.startN64 init) :=
  decode_at 0x3004#16 7 rfl (by decide) (by decide)

theorem startR8 (init : Word) : Statement (.startR8 init) :=
  decode_at 0x3008#16 8 rfl (by decide) (by decide)

theorem startR16 (init : Word) : Statement (.startR16 init) :=
  decode_at 0x3009#16 9 rfl (by decide) (by decide)

theorem startR24 (init : Word) : Statement (.startR24 init) :=
  decode_at 0x300A#16 10 rfl (by decide) (by decide)

theorem startR32 (init : Word) : Statement (.startR32 init) :=
  decode_at 0x300B#16 11 rfl (by decide) (by decide)

theorem startR64 (init : Word) : Statement (.startR64 init) :=
  decode_at 0x300C#16 12 rfl (by decide) (by decide)

theorem feed (byte : Byte) : Statement (.feed byte) := feed_word byte 0

theorem finish : Statement .finish :=
  decode_at 0x5000#16 14 rfl (by decide) (by decide)

theorem clrerr : Statement .clrerr :=
  decode_at 0x6000#16 15 rfl (by decide) (by decide)

end RoundTrip

end Sys2Proof.Laws
end

