-- ==== Sys2Proof/Laws/Run.lean ====
section
/-! SUPPORT. Runs, by way of `step`: one step more, and two runs one after the other. -/

namespace Sys2Proof.Machine

theorem run_zero (s : State) : Host.Core.run core 0 s = .next s := rfl

theorem run_next {s t : State} (h : step s = .next t) (k : Nat) :
    Host.Core.run core (k + 1) s = Host.Core.run core k t := by
  have h' : core.step s = .next t := h
  simp only [Host.Core.run, h']

theorem run_fault {s : State} {f : Fault} (h : step s = .fault f) (k : Nat) :
    Host.Core.run core (k + 1) s = .fault f := by
  have h' : core.step s = .fault f := h
  simp only [Host.Core.run, h']

theorem run_refused {s : State} {r : Refusal} (h : step s = .refused r) (k : Nat) :
    Host.Core.run core (k + 1) s = .refused r := by
  have h' : core.step s = .refused r := h
  simp only [Host.Core.run, h']

/-- A run that ends in a state began with a step that did. -/
theorem run_succ_inv {k : Nat} {s t : State} (h : Host.Core.run core (k + 1) s = .next t) :
    ∃ u, step s = .next u ∧ Host.Core.run core k u = .next t := by
  cases hs : step s with
  | next u => exact ⟨u, rfl, by rwa [run_next hs] at h⟩
  | fault f =>
    rw [run_fault hs] at h
    cases h
  | refused r =>
    rw [run_refused hs] at h
    cases h

/-- Two runs one after the other are one run. -/
theorem run_add {m : Nat} {s u : State} (n : Nat) (h : Host.Core.run core m s = .next u) :
    Host.Core.run core (m + n) s = Host.Core.run core n u := by
  induction m generalizing s with
  | zero =>
    injection h with h
    rw [Nat.zero_add, h]
  | succ k ih =>
    obtain ⟨v, hs, hv⟩ := run_succ_inv h
    rw [Nat.succ_add, run_next hs, ih hv]

/-- A property every step keeps holds at the end of every run from a state that has it. -/
theorem run_induct {P : State → Prop} (keep : ∀ s t, P s → step s = .next t → P t) (n : Nat) :
    ∀ {s t : State}, P s → Host.Core.run core n s = .next t → P t := by
  induction n with
  | zero =>
    intro s t hs h
    injection h with h
    exact h ▸ hs
  | succ k ih =>
    intro s t hs h
    obtain ⟨u, hu, hk⟩ := run_succ_inv h
    exact ih (keep _ _ hs hu) hk

end Sys2Proof.Machine
end

