-- ==== Sys2Proof/Tests/Slice0.lean ====
section
/-! SUPPORT. The model's own tests, and for every statement with hypotheses a witness that meets them.
Expected values are the spec's: its examples (40_table_setup.md to 42_housekeeping.md) and its vectors
(95_test_vectors.md), named at each test. -/

namespace Sys2Proof.Tests

open Sys2Proof.Machine

/-! ## Helpers -/

/-- The state of an outcome that has one. -/
def nextOf : Host.Outcome State Fault Refusal → Option State
  | .next s => some s
  | .fault _ | .refused _ => none

/-- The state after one step on a command. -/
def after (cmd : BitVec 16) (arg : Word) (s : State) : Option State :=
  nextOf (step { s with pending := [.command ⟨cmd, arg⟩] })

/-- What STATUS reads after one step on a command. -/
def statusAfter (cmd : BitVec 16) (arg : Word) (s : State) : Option Word :=
  (after cmd arg s).map statusWord

/-- IDLE, with a valid table length declared and one entry written. -/
def ready : State := { State.reset with tbllen := 256, table := [(0x31, 0x97)] }

/-- A fold of a variant in progress, with one table entry written. -/
def folding (v : Variant) (crc : Word) (index : Nat) (entry : Word) : State :=
  { State.reset with tbllen := 256, active := true, cfg := v, crc := crc, table := [(index, entry)] }

/-- A fold of N8 in progress. -/
def busy : State := folding ⟨.normal, .w8⟩ 0 0x31 0x97

/-- The register after FEED 0x31 in a fold (95_test_vectors.md section 3.2). -/
def crcAfterFeed (v : Variant) (crc : Word) (index : Nat) (entry : Word) : Option Word :=
  (after 0x4031 0 (folding v crc index entry)).map (fun s => s.crc)

/-- The register after START from `ready` with ARG FEDCBA9876543210, and the variant latched. -/
def latched (cmd : BitVec 16) : Option (Word × Variant × Bool) :=
  (after cmd 0xFEDCBA9876543210 ready).map (fun s => (s.crc, s.cfg, s.active))

/-- The table RAM with `f i` written at every index. -/
def fullTable (f : Nat → Word) : Memory := (List.range 256).map (fun i => (i, f i))

/-- IDLE with a full table: the entry at each index is the index (table I of 95_test_vectors.md). -/
def loaded : State :=
  { State.reset with tbllen := 256, table := fullTable (BitVec.ofNat 64) }

/-! ## The smoke test of WellFormed: for each check a term it refuses -/

/-- 30_encoding.md R62: OPC 0x7 and 0xF. -/
theorem test_opcode_refused :
    Command.opcodeAssigned ⟨0x7000, 0⟩ = false ∧ Command.wellFormed ⟨0xF000, 0⟩ = false := by decide

/-- 30_encoding.md R69, one word for each reserved field. -/
theorem test_reserved_bits_refused :
    Command.reservedBitsClear ⟨0x1100, 5⟩ = false ∧ Command.reservedBitsClear ⟨0x0001, 0⟩ = false ∧
    Command.reservedBitsClear ⟨0x2001, 0x100⟩ = false ∧ Command.reservedBitsClear ⟨0x5001, 0⟩ = false ∧
    Command.reservedBitsClear ⟨0x6080, 0⟩ = false ∧ Command.reservedBitsClear ⟨0x3010, 0⟩ = false ∧
    Command.reservedBitsClear ⟨0x4100, 0⟩ = false := by decide

/-- 30_encoding.md R66: WCODE 5, 6 and 7, in either direction. -/
theorem test_width_code_refused :
    Command.widthAssigned ⟨0x3005, 0⟩ = false ∧ Command.widthAssigned ⟨0x3006, 0⟩ = false ∧
    Command.widthAssigned ⟨0x300F, 0⟩ = false := by decide

/-- The last legal words of their fields pass every check. -/
theorem test_edge_words_accepted :
    Command.wellFormed ⟨0x6000, 7⟩ = true ∧ Command.wellFormed ⟨0x300C, 0⟩ = true ∧
    Command.wellFormed ⟨0x10FF, 0⟩ = true := by decide

/-- 30_encoding.md R73: operands one above their range. -/
theorem test_operands_refused :
    Source.wellFormed (.twr 256 0) = false ∧ Source.wellFormed (.twr 0 (2 ^ 64)) = false ∧
    Source.wellFormed (.tlen (2 ^ 64)) = false ∧
    Source.wellFormed (.start ⟨.normal, .w8⟩ (2 ^ 64)) = false ∧
    Source.wellFormed (.feed 256) = false ∧ Source.wellFormed (.feeds [0, 256]) = false ∧
    Source.wellFormed (.word 65536 0) = false ∧ Source.wellFormed (.word 0 (2 ^ 64)) = false ∧
    Source.wellFormed (.fold ⟨.normal, .w8⟩ 0 [256]) = false ∧
    Source.wellFormed (.ldtable [0]) = false := by decide

/-- The largest operands pass. -/
theorem test_operands_accepted :
    Source.wellFormed (.twr 255 (2 ^ 64 - 1)) = true ∧ Source.wellFormed (.feed 255) = true ∧
    Source.wellFormed (.word 65535 (2 ^ 64 - 1)) = true := by decide

/-! ## Decoding: for every constructor a word written out from its row of 30_encoding.md R67 -/

theorem test_decode_nop : decode ⟨0b0000000000000000, 0xFF⟩ = .row .nop := by decide
theorem test_decode_twr : decode ⟨0b0001000010000001, 9⟩ = .row (.twr 0x81 9) := by decide
theorem test_decode_tlen : decode ⟨0b0010000000000000, 256⟩ = .row (.tlen 256) := by decide
theorem test_decode_startN8 : decode ⟨0b0011000000000000, 1⟩ = .row (.startN8 1) := by decide
theorem test_decode_startN16 : decode ⟨0b0011000000000001, 2⟩ = .row (.startN16 2) := by decide
theorem test_decode_startN24 : decode ⟨0b0011000000000010, 3⟩ = .row (.startN24 3) := by decide
theorem test_decode_startN32 : decode ⟨0b0011000000000011, 4⟩ = .row (.startN32 4) := by decide
theorem test_decode_startN64 : decode ⟨0b0011000000000100, 5⟩ = .row (.startN64 5) := by decide
theorem test_decode_startR8 : decode ⟨0b0011000000001000, 6⟩ = .row (.startR8 6) := by decide
theorem test_decode_startR16 : decode ⟨0b0011000000001001, 7⟩ = .row (.startR16 7) := by decide
theorem test_decode_startR24 : decode ⟨0b0011000000001010, 8⟩ = .row (.startR24 8) := by decide
theorem test_decode_startR32 : decode ⟨0b0011000000001011, 9⟩ = .row (.startR32 9) := by decide
theorem test_decode_startR64 : decode ⟨0b0011000000001100, 10⟩ = .row (.startR64 10) := by decide
theorem test_decode_feed : decode ⟨0b0100000000110001, 7⟩ = .row (.feed 0x31) := by decide
theorem test_decode_finish : decode ⟨0b0101000000000000, 7⟩ = .row .finish := by decide
theorem test_decode_clrerr : decode ⟨0b0110000000000000, 7⟩ = .row .clrerr := by decide

/-- Vectors D-X4 to D-X8: words of no row. -/
theorem test_decode_illegal :
    [0x3005, 0x3010, 0x3100, 0x7000, 0xF000, 0x0001, 0x5001, 0x6001, 0x4100, 0x1F00].all
      (fun cmd => decode ⟨cmd, 0⟩ == .illegal) = true := by decide

/-- The opcode table's numbering: CMD in bits 15..0 and ARG above it, or no ARG bits at all. -/
theorem test_table_word :
    decodeTableWord 80 (0x77073096 * 2 ^ 16 + 0x1001) = some (.twr 1 0x77073096) ∧
    decodeTableWord 16 0x300B = some (.startR32 0) ∧ decodeTableWord 16 0x7000 = none := by decide

/-- The word placed is the very next command, from reset. -/
theorem test_fetch_word :
    nextOf (step (State.reset.withFetchWord 80 (256 * 2 ^ 16 + 0x2000))) =
      some { State.reset with tbllen := 256 } := by decide

/-! ## The commands, one step each -/

/-- D-N1: NOP on STATUS 160, with ARG set. -/
theorem test_nop_clears_err :
    statusAfter 0x0000 7 { State.reset with err := 6, sticky := true } = some 0x100 := by decide

/-- D-N2: NOP in a fold leaves the register. -/
theorem test_nop_keeps_crc :
    after 0x0000 0 (folding ⟨.reflected, .w32⟩ 0x7C231048 0x7A 0xB0D09822) =
      some (folding ⟨.reflected, .w32⟩ 0x7C231048 0x7A 0xB0D09822) := by decide

/-- D-T2 and D-T3: all 64 bits are stored, and the last write wins. -/
theorem test_twr_stores_all_bits :
    (after 0x1005 0xFFFFFFFFFFFFFFFF { State.reset with table := [(1, 7), (5, 1), (9, 8)] }).map
      (fun s => s.table) = some [(1, 7), (5, 0xFFFFFFFFFFFFFFFF), (9, 8)] := by decide

/-- D-T11: LOCKED in a fold, and the table as before. -/
theorem test_twr_locked :
    after 0x1000 5 busy = some { busy with err := 5, sticky := true } ∧
    statusAfter 0x1000 5 busy = some 0x151 := by decide

/-- D-T8: all 64 bits of the count are kept. -/
theorem test_tlen_keeps_all_bits :
    after 0x2000 0x100000100 State.reset = some { State.reset with tbllen := 0x100000100 } := by
  decide

/-- D-T12: LOCKED in a fold. -/
theorem test_tlen_locked :
    statusAfter 0x2000 0 busy = some 0x151 ∧
    (after 0x2000 0 busy).map (fun s => s.tbllen) = some 256 := by decide

/-- 41_fold.md R102 and vector D-E1: START.N8 keeps 8 bits of ARG. -/
theorem test_startN8_latches : latched 0x3000 = some (0x10, ⟨.normal, .w8⟩, true) := by decide
/-- R93, D-E2. -/
theorem test_startN16_latches : latched 0x3001 = some (0x3210, ⟨.normal, .w16⟩, true) := by decide
/-- R94: the scratch byte keeps ARG[31:24]. -/
theorem test_startN24_latches : latched 0x3002 = some (0x76543210, ⟨.normal, .w24⟩, true) := by decide
/-- R95, D-E4. -/
theorem test_startN32_latches : latched 0x3003 = some (0x76543210, ⟨.normal, .w32⟩, true) := by decide
/-- R96, D-E5. -/
theorem test_startN64_latches :
    latched 0x3004 = some (0xFEDCBA9876543210, ⟨.normal, .w64⟩, true) := by decide
/-- R97, D-E6. -/
theorem test_startR8_latches : latched 0x3008 = some (0x10, ⟨.reflected, .w8⟩, true) := by decide
/-- R98, D-E7. -/
theorem test_startR16_latches : latched 0x3009 = some (0x3210, ⟨.reflected, .w16⟩, true) := by decide
/-- R99, D-E8: the pre-loop mask. -/
theorem test_startR24_latches : latched 0x300A = some (0x543210, ⟨.reflected, .w24⟩, true) := by decide
/-- R100, D-E9. -/
theorem test_startR32_latches :
    latched 0x300B = some (0x76543210, ⟨.reflected, .w32⟩, true) := by decide
/-- R101, D-E10. -/
theorem test_startR64_latches :
    latched 0x300C = some (0xFEDCBA9876543210, ⟨.reflected, .w64⟩, true) := by decide

/-- D-81: one byte in N8. -/
theorem test_feed_n8 : crcAfterFeed ⟨.normal, .w8⟩ 0x5A 0x6B 0x16 = some 0x16 := by decide
/-- D-I1: byte 56 and register 1234 read index 44, and 44 XOR 3400 follows. -/
theorem test_feed_n16 :
    (after 0x4056 0 (folding ⟨.normal, .w16⟩ 0x1234 0x44 0x44)).map (fun s => s.crc) =
      some 0x3444 := by decide
/-- D-B3: the scratch byte after one FEED. -/
theorem test_feed_n24 : crcAfterFeed ⟨.normal, .w24⟩ 0xB704CE 0x86 0x2A7448 = some 0xB72EBA48 := by
  decide
/-- D-B4. -/
theorem test_feed_n32 :
    crcAfterFeed ⟨.normal, .w32⟩ 0xFFFFFFFF 0xCE 0x61043093 = some 0x9EFBCF93 := by decide
/-- D-B5. -/
theorem test_feed_n64 :
    crcAfterFeed ⟨.normal, .w64⟩ 0 0x31 0xE8B768EB18C8B8A2 = some 0xE8B768EB18C8B8A2 := by decide
/-- D-82. -/
theorem test_feed_r8 : crcAfterFeed ⟨.reflected, .w8⟩ 0x5A 0x6B 0x16 = some 0x16 := by decide
/-- D-I2. -/
theorem test_feed_r16 :
    (after 0x4056 0 (folding ⟨.reflected, .w16⟩ 0x1234 0x62 0x62)).map (fun s => s.crc) =
      some 0x0070 := by decide
/-- D-B8. -/
theorem test_feed_r24 :
    crcAfterFeed ⟨.reflected, .w24⟩ 0xAAAAAA 0x9B 0xCE5740 = some 0xCEFDEA := by decide
/-- D-B9 and L1-1. -/
theorem test_feed_r32 :
    crcAfterFeed ⟨.reflected, .w32⟩ 0xFFFFFFFF 0xCE 0x7CDCEFB7 = some 0x7C231048 := by decide
/-- D-B10. -/
theorem test_feed_r64 :
    crcAfterFeed ⟨.reflected, .w64⟩ 0xFFFFFFFFFFFFFFFF 0xCE 0xD52F0E859495CAED =
      some 0xD5D0F17A6B6A3512 := by decide

/-- D-X1: SEQUENCE in IDLE. -/
theorem test_feed_idle : after 0x4031 0 ready = some { ready with err := 4, sticky := true } := by
  decide

/-- 20_memory.md R43: a FEED of an entry not written since reset faults. -/
theorem test_feed_unwritten :
    (match step { busy with pending := [.command ⟨0x4030, 0⟩] } with
      | .fault f => some f
      | .next _ | .refused _ => none) = some (.unwrittenEntry 0x30) := by decide

/-- D-B3 and D-K6: FINISH of N24 drops the scratch byte and leaves the register. -/
theorem test_finish_masks_n24 :
    (after 0x5000 0 (folding ⟨.normal, .w24⟩ 0x5121CF02 0 0)).map
      (fun s => (s.result, s.crc, s.active)) = some (0x21CF02, 0x5121CF02, false) := by decide

/-- D-H1: FINISH of R24 masks nothing. -/
theorem test_finish_r24_unmasked :
    (after 0x5000 0 (folding ⟨.reflected, .w24⟩ 0xFF000000 0 0)).map (fun s => s.result) =
      some 0xFF000000 := by decide

/-- D-N4: CLRERR in a fold. -/
theorem test_clrerr_in_a_fold :
    statusAfter 0x6000 0 { busy with err := 4, sticky := true } = some 0x001 := by decide

/-- D-N3. -/
theorem test_clrerr_idle :
    statusAfter 0x6000 0 { State.reset with err := 6, sticky := true } = some 0x000 := by decide

/-! ## Priority, the read port and the reset -/

/-- D-X9 (from a state no run reaches), D-X4 and D-X10. -/
theorem test_priority :
    statusAfter 0x3003 0 { busy with tbllen := 0xFF } = some 0x141 ∧
    statusAfter 0x3005 0 busy = some 0x161 ∧
    statusAfter 0x3005 0 { ready with tbllen := 0xFF } = some 0x160 := by decide

/-- D-N5 and D-N6, and a reserved address. -/
theorem test_read_port :
    [0x0, 0x1, 0x2, 0x3].map (fun a => readPort a State.reset) = [0, 0, 0, 0] ∧
    readPort 0x3 { ready with cfg := ⟨.reflected, .w32⟩ } = 0xB ∧ readPort 0xF ready = 0 := by decide

/-- 70_reset_and_hazards.md R150: a reset in a fold. -/
theorem test_reset_in_a_fold :
    nextOf (step { busy with result := 5, err := 4, sticky := true, pending := [.reset] }) =
      some State.reset := by decide

/-- D-C4 and D-H2: the fold as a function, over table H. -/
theorem test_fold_over_h :
    foldV (fun _ => 0xFF000000) ⟨.reflected, .w24⟩ [0, 0] 0 = 0xFFFF0000 ∧
    foldV (fun _ => 0xFF000000) ⟨.normal, .w24⟩ [0, 0] 0 = 0 := by decide

/-- D-Z3 and D-Z8: over the zero table. -/
theorem test_fold_over_z :
    foldV (fun _ => 0) ⟨.normal, .w24⟩ [0xAB, 0xAB] 0x1122334455667788 = 0x880000 ∧
    foldV (fun _ => 0) ⟨.reflected, .w24⟩ [0xAB, 0xAB] 0x1122334455667788 = 0x66 := by decide

/-! ## The assembler (30_encoding.md R73, R74) -/

/-- The example of R80, in capitals and with a comment. -/
theorem test_line_twr :
    (parseLine [] "TWR 1, 0x77073096 ; entry".toList).bind (List.mapM assemble) =
      some [[.command ⟨0x1001, 0x77073096⟩]] := by decide

/-- A fold with its text (R74): start, one feed for each character, finish. -/
theorem test_line_fold :
    (parseLine [] "fold.r32 0xFFFFFFFF, \"12\"".toList).bind (List.mapM assemble) =
      some [[.command ⟨0x300B, 0xFFFFFFFF⟩, .command ⟨0x4031, 0⟩, .command ⟨0x4032, 0⟩,
        .command ⟨0x5000, 0⟩]] := by decide

/-- A character operand, a list of bytes, a read and a raw word. -/
theorem test_program_text :
    assembleText [] ["feed 'a'".toList, "feeds 0x10, 2".toList, "".toList, "read CFG".toList,
        ".word 0x3005, 0".toList] =
      some [.command ⟨0x4061, 0⟩, .command ⟨0x4010, 0⟩, .command ⟨0x4002, 0⟩, .read 0x3,
        .command ⟨0x3005, 0⟩] := by decide

/-- Out of range, an unknown mnemonic, and operands that do not fit the form. -/
theorem test_lines_refused :
    ["feed 256", "twr 256, 0", "tlen 18446744073709551616", "start.n12 0", "jump 3", "nop 1",
      "feed 1 2", "feed", "feeds", "feed 1,"].all
      (fun l => (parseLine [] l.toList).bind (List.mapM assemble) == none) = true := by decide

/-! ## Witnesses: for each statement with hypotheses, values that meet them -/

/-- The ten variants. -/
def variants : List Variant :=
  [⟨.normal, .w8⟩, ⟨.normal, .w16⟩, ⟨.normal, .w24⟩, ⟨.normal, .w32⟩, ⟨.normal, .w64⟩,
    ⟨.reflected, .w8⟩, ⟨.reflected, .w16⟩, ⟨.reflected, .w24⟩, ⟨.reflected, .w32⟩,
    ⟨.reflected, .w64⟩]

/-- A step ends in a state. -/
def steps (s : State) : Bool := (nextOf (step s)).isSome

theorem read_map_range (f : Nat → Word) (n k i : Nat) (h : k ≤ i) (h' : i < k + n) :
    Memory.read ((List.range' k n).map (fun j => (j, f j))) i = some (f i) := by
  induction n generalizing k with
  | zero => omega
  | succ n ih =>
    rw [List.range'_succ, List.map_cons, Memory.read]
    split
    · rename_i e
      rw [e]
    · exact ih (k + 1) (by omega) (by omega)

theorem read_fullTable (f : Nat → Word) (i : Byte) :
    (fullTable f).read i.toNat = some (f i.toNat) := by
  rw [fullTable, List.range_eq_range']
  exact read_map_range f 256 0 i.toNat (Nat.zero_le _) (by omega)

/-- `loaded` with a fold of R32 started. -/
def loadedBusy : State := { loaded with active := true, cfg := ⟨.reflected, .w32⟩ }

/-- Words that decode to a command: one whose ARG is used, at the last index, and one whose ARG is
ignored and not 0. -/
theorem witness_encoderAndDecoderAgree :
    decode ⟨0x10FF, 0xFFFFFFFFFFFFFFFF⟩ = .row (.twr 0xFF 0xFFFFFFFFFFFFFFFF) ∧
    decode ⟨0x4000, 1⟩ = .row (.feed 0) := by decide

/-- One illegal command for each clause, at the edges. -/
theorem witness_illegalExactlyTheReservedEncodings :
    [0x7000, 0xFFFF, 0x1100, 0x4800, 0x0001, 0x2080, 0x5001, 0x60FF, 0x3010, 0x3080, 0x3005,
      0x300F].all (fun cmd => decode ⟨cmd, 0xFFFFFFFFFFFFFFFF⟩ == .illegal) = true := by decide

/-- A command, an illegal command, and a command of each OPC that ignores ARG. -/
theorem witness_decoderNeverLooksAtArg :
    decode ⟨0x300C, 0⟩ = .row (.startR64 0) ∧ decode ⟨0x300D, 0⟩ = .illegal ∧
    [0x0000#16, 0x40FF#16, 0x5000#16, 0x6000#16].all
      (fun cmd => decide (cmd.extractLsb' 12 4 ∈ [0x0#4, 0x4#4, 0x5#4, 0x6#4])) = true := by decide

/-- A legal and an illegal command presented, with a read to follow. -/
theorem witness_stepRunsTheDecodedCommand :
    ({ ready with pending := [.command ⟨0x3000, 0⟩, .read 0] } : State).pending =
      .command ⟨0x3000, 0⟩ :: [.read 0] ∧
    decode ⟨0x3000, 0⟩ = .row (.startN8 0) ∧ decode ⟨0x3007, 0⟩ = .illegal := by decide

/-- An accepted command, a rejected command, a read and a reset all step to a state. -/
theorem witness_actionsAreConsumedInOrder :
    [HostAction.command ⟨0x3000, 0⟩, .command ⟨0x5000, 0⟩, .read 0xF, .reset].all
      (fun a => steps { ready with pending := [a, .reset] }) = true ∧
    ready.pending = [] := by decide

/-- Reads at the first and last reserved addresses. -/
theorem witness_readPortReturnsTheRegister :
    ({ ready with pending := [.read 0x4] } : State).pending = .read 0x4 :: [] ∧
    4 ≤ (0x4#4).toNat ∧ 4 ≤ (0xF#4).toNat := by decide

/-- A run with reads between its commands that ends in a state. -/
theorem witness_readsNeverChangeARun :
    (nextOf (Host.Core.run core 5 { ready with pending :=
      [.read 0, .command ⟨0x3000, 0⟩, .read 3, .command ⟨0x4031, 0⟩, .reset] })).isSome = true := by
  decide

theorem witness_resetAbandonsEverything :
    ({ busy with pending := [.reset, .read 1] } : State).pending = .reset :: [.read 1] := by decide

theorem witness_nopClearsOnlyErr :
    (0x0001#16).extractLsb' 12 4 = 0x0#4 ∧ (0x0001#16) ≠ 0x0000#16 ∧
    (0x0FFF#16).extractLsb' 12 4 = 0x0#4 := by decide

theorem witness_clrerrClearsStickyAndErr :
    (0x6001#16).extractLsb' 12 4 = 0x6#4 ∧ (0x6001#16) ≠ 0x6000#16 ∧
    statusWord { State.reset with err := 6, sticky := true } = 0x160 ∧
    (nextOf (exec .clrerr { State.reset with err := 6, sticky := true })).isSome = true ∧
    ((nextOf (exec .clrerr ready)).bind (fun t => nextOf (issue ⟨0x5000, 0⟩ t))).isSome = true := by
  decide

theorem witness_twrWritesOneEntry :
    (0x1100#16).extractLsb' 12 4 = 0x1#4 ∧ (0x1100#16).extractLsb' 8 4 ≠ 0#4 ∧
    ready.active = false ∧ busy.active = true := by decide

/-- Counts on both sides of 256, and one whose low 32 bits are 256. -/
theorem witness_tlenDeclaresTheLength :
    (0x2001#16).extractLsb' 12 4 = 0x2#4 ∧ (0x2001#16) ≠ 0x2000#16 ∧ ready.active = false ∧
    [0#64, 255#64, 257#64, 0x100000100#64].all (fun count =>
      decide (count ≠ 256) && (nextOf (exec (.tlen count) ready)).isSome) = true ∧
    busy.active = true := by decide

theorem witness_startChecksThenLatches :
    (0x3010#16).extractLsb' 12 4 = 0x3#4 ∧ (0x3010#16).extractLsb' 4 8 ≠ 0#8 ∧
    (0x3005#16).extractLsb' 12 4 = 0x3#4 ∧ 5 ≤ ((0x3005#16).extractLsb' 0 3).toNat ∧
    busy.active = true ∧ State.reset.active = false ∧ State.reset.tbllen ≠ 256 ∧
    ready.active = false ∧ ready.tbllen = 256 := by decide

/-- For every variant, normal and reflected (the table bounded for R24 stands at R112), a state that meets the hypotheses of START, of FEED and of
FINISH in its rule, and the clauses' bounds at their edges. -/
theorem witness_variantRules :
    ready.active = false ∧ ready.tbllen = 256 ∧
    variants.all (fun v =>
      let s := folding v 0 0xFF 0x123456789ABCDEF0
      s.active && decide (s.cfg = v) &&
        decide (s.table.read (tableIndex v s.crc 0xFF).toNat = some 0x123456789ABCDEF0)) = true ∧
    (0xFF#64).toNat < 2 ^ 8 ∧ (0xFFFFFFFF#64).toNat < 2 ^ 32 := by decide

/-- FEED of a written entry and of one that is not, in a fold, and FEED in IDLE. -/
theorem witness_feedFoldsOneByte :
    (0x4100#16).extractLsb' 12 4 = 0x4#4 ∧ (0x4100#16).extractLsb' 8 4 ≠ 0#4 ∧
    ready.active = false ∧ busy.active = true ∧
    busy.table.read (tableIndex busy.cfg busy.crc 0x31).toNat = some 0x97 ∧
    busy.table.read (tableIndex busy.cfg busy.crc 0xFF).toNat = none := by decide

/-- FINISH of N24 with its scratch byte full, and a whole empty fold. -/
theorem witness_finishPublishesTheResult :
    (0x5001#16).extractLsb' 12 4 = 0x5#4 ∧ (0x5001#16) ≠ 0x5000#16 ∧ ready.active = false ∧
    (folding ⟨.normal, .w24⟩ 0xFFFFFFFF 0 0).active = true ∧
    (0xFFFFFFFF#64).toNat < 2 ^ container ⟨.normal, .w24⟩ ∧
    (nextOf (exec .finish (folding ⟨.normal, .w24⟩ 0xFFFFFFFF 0 0))).isSome = true ∧
    ready.tbllen = 256 ∧
    ((nextOf (exec (.startN24 0xFFFFFFFF) ready)).bind (fun t => nextOf (exec .finish t))).isSome =
      true := by decide

/-- A register that fills its container, in every variant. -/
theorem witness_genericUpdateOfBothDirections :
    variants.all (fun v =>
      decide ((BitVec.ofNat 64 (2 ^ container v - 1)).toNat < 2 ^ container v)) = true := by decide

theorem loaded_written : TableWritten loaded := fun i => by
  rw [show loaded.table = fullTable (BitVec.ofNat 64) from rfl, read_fullTable]
  rfl

theorem witness_everyCommandHasItsOutcome : TableWritten loaded ∧ TableWritten loadedBusy :=
  ⟨loaded_written, loaded_written⟩

/-- A command rejected in a fold, and one rejected in IDLE. -/
theorem witness_rejectionIsPrecise :
    (after 0x3008 0 busy).map (fun t => decide (t.err ≠ 0x0)) = some true ∧
    (after 0xF000 0 ready).map (fun t => decide (t.err ≠ 0x0)) = some true := by decide

theorem witness_wrongPhaseIsRejected : busy.active = true ∧ ready.active = false := by decide

/-- Actions that clear STICKY and actions that do not, each stepping to a state. -/
theorem witness_stickyChangesOnlyAsStated :
    [HostAction.command ⟨0x6000, 0⟩, .reset].all (fun a =>
      clearsSticky a && steps { busy with sticky := true, pending := [a] }) = true ∧
    [HostAction.command ⟨0x5000, 0⟩, .command ⟨0x2000, 0⟩, .read 0].all (fun a =>
      !clearsSticky a && steps { busy with pending := [a] }) = true := by decide

theorem reset_meets_inv : Inv State.reset := by
  refine ⟨?_, ?_, ?_, ?_, ?_, ?_⟩ <;> decide

/-- A run from reset, also past its last action, with no CLRERR, no reset and no rejection. -/
theorem witness_clearStickyMeansNoRejection :
    Inv { State.reset with pending := [.command ⟨0x2000, 256⟩, .command ⟨0x3000, 0⟩] } ∧
    (([.command ⟨0x2000, 256⟩, .command ⟨0x3000, 0⟩] : List HostAction).take 3).all
      (fun a => !clearsSticky a) = true ∧
    (nextOf (Host.Core.run core 3 { State.reset with pending :=
      [.command ⟨0x2000, 256⟩, .command ⟨0x3000, 0⟩] })).map (fun t => t.sticky) = some false := by
  refine ⟨⟨?_, ?_, ?_, ?_, ?_, ?_⟩, ?_, ?_⟩ <;> decide

/-- For each piece of state a command that changes it. -/
theorem witness_eachStateHasItsWriters :
    (after 0x4031 0 busy).map (fun t => decide (t.crc ≠ busy.crc)) = some true ∧
    (after 0x300B 5 ready).map (fun t => decide (t.cfg ≠ ready.cfg)) = some true ∧
    (after 0x5000 0 (folding ⟨.normal, .w8⟩ 9 0 0)).map (fun t => decide (t.result ≠ 0)) =
      some true ∧
    (after 0x2000 7 ready).map (fun t => decide (t.tbllen ≠ ready.tbllen)) = some true ∧
    (after 0x10FF 7 ready).map (fun t => decide (t.table ≠ ready.table)) = some true := by decide

/-- A FINISH and a reset that end a fold, and a START that begins one. -/
theorem witness_onlyFinishOrResetEndsAFold :
    busy.active = true ∧ (after 0x5000 0 busy).map (fun t => t.active) = some false ∧
    (nextOf (step { busy with pending := [.reset] })).map (fun t => t.active) = some false ∧
    ready.active = false ∧ (after 0x3000 0 ready).map (fun t => t.active) = some true := by decide

/-- The fault the statement names is reached. -/
theorem witness_faultsExactlyOnUnwrittenReads :
    decode ⟨0x40CE, 0⟩ = .row (.feed 0xCE) ∧ busy.active = true ∧
    busy.table.read (tableIndex busy.cfg busy.crc 0xCE).toNat = none := by decide

theorem witness_loadedTableNeverFaults :
    TableWritten loaded ∧ (∀ a ∈ loaded.pending, a ≠ .reset) :=
  ⟨loaded_written, by decide⟩

/-- The invariant at reset, in a state with a fold in progress and a full container, and a step from
each. -/
theorem witness_everyStepKeepsTheInvariant :
    Inv State.reset ∧ steps State.reset = true ∧
    Inv { folding ⟨.normal, .w24⟩ 0xFFFFFFFF 0xCE 7 with
      err := 5, sticky := true, pending := [.command ⟨0x4031, 0⟩] } ∧
    steps { folding ⟨.normal, .w24⟩ 0xFFFFFFFF 0xCE 7 with
      err := 5, sticky := true, pending := [.command ⟨0x4031, 0⟩] } = true := by
  refine ⟨reset_meets_inv, by decide, ⟨?_, ?_, ?_, ?_, ?_, ?_⟩, by decide⟩ <;> decide

/-- Actions inside a fold of R32 over table I: a FEED, a read, a rejected TWR and an illegal word. -/
theorem witness_foldDataIsTheFedBytes :
    loadedBusy.active = true ∧
    (∀ i : Byte, loadedBusy.table.read i.toNat = some (BitVec.ofNat 64 i.toNat)) ∧
    [HostAction.command ⟨0x4031, 0⟩, .read 0, .command ⟨0x1000, 5⟩, .command ⟨0x7000, 0⟩].all
      (fun a => !endsFold a) = true :=
  ⟨rfl, read_fullTable _, by decide⟩

/-- *table-loaded(I)*, with the commands of an empty fold and of a fold of two bytes presented. -/
theorem witness_foldPublishesFoldV :
    (∀ data : List Byte, TableLoaded (fun i => BitVec.ofNat 64 i.toNat)
      { loaded with pending := foldCommands ⟨.normal, .w16⟩ 0x1234 data }) ∧
    ({ loaded with pending := foldCommands ⟨.normal, .w16⟩ 0x1234 [0x56, 0] } : State).pending =
      foldCommands ⟨.normal, .w16⟩ 0x1234 [0x56, 0] ++ [] :=
  ⟨fun _ => ⟨rfl, rfl, read_fullTable _⟩, rfl⟩

theorem witness_callWithAFullTableReturnsTheFold :
    (List.replicate 256 (7 : Word)).length = 256 ∧ State.reset.active = false ∧
    ({ State.reset with pending := foldCall (List.replicate 256 7) ⟨.normal, .w24⟩ 0 [1] } :
      State).pending = foldCall (List.replicate 256 7) ⟨.normal, .w24⟩ 0 [1] ++ [] :=
  ⟨List.length_replicate, rfl, (List.append_nil _).symm⟩

/-- Tables of no entry, of 255 and of 257. -/
theorem witness_callWithAnotherLengthFoldsNothing :
    [0, 255, 257].all (fun n => decide ((List.replicate n (7 : Word)).length ≠ 256) &&
      decide ((List.replicate n (7 : Word)).length < 2 ^ 64)) = true ∧
    State.reset.active = false ∧
    ({ State.reset with pending := foldCall [7] ⟨.normal, .w24⟩ 0 [1] } : State).pending =
      foldCall [7] ⟨.normal, .w24⟩ 0 [1] ++ [] := by
  refine ⟨?_, rfl, rfl⟩
  simp

/-- Two states that share a table and differ in all the rest. -/
theorem witness_foldIgnoresEarlierState :
    ready.active = false ∧
    ({ ready with crc := 5, cfg := ⟨.reflected, .w64⟩, result := 9, err := 4, sticky := true } :
      State).active = false ∧
    ready.table =
      ({ ready with crc := 5, cfg := ⟨.reflected, .w64⟩, result := 9, err := 4, sticky := true } :
        State).table ∧
    ready.tbllen = 256 := by decide

/-- IDLE with a valid length, and the largest ARG below 2^24. -/
theorem witness_emptyFoldTruncatesArg :
    ready.active = false ∧ ready.tbllen = 256 ∧
    (⟨.reflected, .w24⟩ : Variant).width = .w24 ∧ (0xFFFFFF#64).toNat < 2 ^ 24 := by decide

theorem witness_normalTwentyFourBitBound :
    (folding ⟨.normal, .w24⟩ 0xFFFFFFFF 0 0).active = true ∧
    (nextOf (exec .finish (folding ⟨.normal, .w24⟩ 0xFFFFFFFF 0 0))).isSome = true := by decide

/-- The bounded table of 24-bit entries all ones, for R24; and a variant other than R24. -/
theorem witness_foldsComposeIncrementally :
    Bounded (fun _ => 0xFFFFFF) ∧
    (⟨.normal, .w24⟩ : Variant) ≠ ⟨.reflected, .w24⟩ :=
  ⟨fun _ => show (trunc 32 0xFFFFFF).toNat ≤ 0xFFFFFF by decide, by decide⟩

theorem witness_directionIrrelevantAtWidthEight : (0xFF#64).toNat < 2 ^ 8 := by decide

/-- Tables that differ above bit 31 and above bit 23 alone. -/
theorem witness_highEntryBitsNeverMatter :
    trunc (container ⟨.normal, .w32⟩) 0x1FFFFFFFF = trunc (container ⟨.normal, .w32⟩) 0xFFFFFFFF ∧
    trunc 24 0xFF123456 = trunc 24 0x123456 := by decide

theorem witness_reflectedTwentyFourBitBound : Bounded (fun _ => 0xFFFFFFFF00FFFFFF) :=
  fun _ => show (trunc 32 0xFFFFFFFF00FFFFFF).toNat ≤ 0xFFFFFF by decide

/-- The operands of R113's own example, and two that differ above the container. -/
theorem witness_highArgBitsNeverMatter :
    trunc 24 0xFFB704CE = trunc 24 0x00B704CE ∧ (⟨.normal, .w24⟩ : Variant).width = .w24 ∧
    trunc (container ⟨.reflected, .w8⟩) 0xFFFF10 = trunc (container ⟨.reflected, .w8⟩) 0x10 := by
  decide

/-- The fewest bytes that clear the register, for every variant. -/
theorem witness_zeroTableFoldIsAShift :
    variants.all (fun v => decide ((policy v).width ≤ 8 * ((policy v).width / 8))) = true := by
  decide

/-- Operands at the ends of their ranges, and a table of 256 entries. -/
theorem witness_assemblerWritesTheEncodings :
    (0 < 256 ∧ 255 < 256) ∧ 65535 < 2 ^ 16 ∧ 2 ^ 64 - 1 < 2 ^ 64 ∧ (∀ b ∈ [0, 255], b < 256) ∧
    (List.range 256).length = 256 ∧ (∀ e ∈ List.range 256, e < 2 ^ 64) := by
  refine ⟨by decide, by decide, by decide, by decide, List.length_range, fun e h => ?_⟩
  have := List.mem_range.mp h
  omega

end Sys2Proof.Tests
end

section
/-! SUPPORT. Family 10_state.md: what a fold's commands do from any IDLE state, as a function of the
table RAM, the variant, the operand and the bytes alone (R38); the read port (R27, R30, R31); and the
state after reset (R36). -/

namespace Sys2Proof.Machine

/-! ## A command the host sends -/

/-- The words of every command decode to it (30_encoding.md R66, R68). -/
theorem decode_encode (i : Instr) : decode (encode i) = .row i := by
  cases i with
  | nop => exact Laws.RoundTrip.nop
  | twr idx value => exact Laws.RoundTrip.twr idx value
  | tlen count => exact Laws.RoundTrip.tlen count
  | startN8 init => exact Laws.RoundTrip.startN8 init
  | startN16 init => exact Laws.RoundTrip.startN16 init
  | startN24 init => exact Laws.RoundTrip.startN24 init
  | startN32 init => exact Laws.RoundTrip.startN32 init
  | startN64 init => exact Laws.RoundTrip.startN64 init
  | startR8 init => exact Laws.RoundTrip.startR8 init
  | startR16 init => exact Laws.RoundTrip.startR16 init
  | startR24 init => exact Laws.RoundTrip.startR24 init
  | startR32 init => exact Laws.RoundTrip.startR32 init
  | startR64 init => exact Laws.RoundTrip.startR64 init
  | feed byte => exact Laws.RoundTrip.feed byte
  | finish => exact Laws.RoundTrip.finish
  | clrerr => exact Laws.RoundTrip.clrerr

/-- A step that takes a sent command executes it on the state without it. -/
theorem step_send {s : State} {i : Instr} {rest : List HostAction}
    (h : s.pending = send i :: rest) : step s = exec i { s with pending := rest } :=
  (step_cons h).trans (issue_row (decode_encode i) _)

/-! ## START from IDLE, FEED and FINISH in a fold -/

theorem exec_startOf_accepted {s : State} (v : Variant) (arg : Word) (ha : s.active = false)
    (hl : s.tbllen = Config.requiredLength) :
    exec (startOf v arg) s = .next (accept (latch v arg s)) := by
  simp [exec_startOf, startFold, ha, hl]

theorem exec_startOf_invalidTable {s : State} (v : Variant) (arg : Word) (ha : s.active = false)
    (hl : s.tbllen ≠ Config.requiredLength) :
    exec (startOf v arg) s = .next (reject .invalidTable s) := by
  simp [exec_startOf, startFold, ha, hl]

theorem exec_feed_written {s : State} {b : Byte} {entry : Word} (ha : s.active = true)
    (hr : s.table.read (tableIndex s.cfg s.crc b).toNat = some entry) :
    exec (.feed b) s = .next (accept { s with crc := stepV s.cfg entry s.crc }) := by
  simp [exec, execFeed, feedByte, ha, hr]

theorem exec_feed_unwritten {s : State} {b : Byte} (ha : s.active = true)
    (hr : s.table.read (tableIndex s.cfg s.crc b).toNat = none) :
    exec (.feed b) s = .fault (.unwrittenEntry (tableIndex s.cfg s.crc b)) := by
  simp [exec, execFeed, feedByte, ha, hr]

theorem exec_finish_active {s : State} (ha : s.active = true) :
    exec .finish s = .next (accept (publish s)) := by
  simp [exec, execFinish, finishFold, ha]

/-! ## The rest of a fold as a function -/

/-- The register after the bytes of `data` over a table RAM that may have unwritten entries, or the
index of the first such entry a byte names (20_memory.md R43). -/
def foldRam (m : Memory) (v : Variant) : Word → List Byte → Except Byte Word
  | r, [] => .ok r
  | r, b :: rest =>
    match m.read (tableIndex v r b).toNat with
    | some entry => foldRam m v (stepV v entry r) rest
    | none => .error (tableIndex v r b)

theorem foldRam_cons_written {m : Memory} {v : Variant} {r entry : Word} {b : Byte}
    (hr : m.read (tableIndex v r b).toNat = some entry) (data : List Byte) :
    foldRam m v r (b :: data) = foldRam m v (stepV v entry r) data := by
  simp [foldRam, hr]

theorem foldRam_cons_unwritten {m : Memory} {v : Variant} {r : Word} {b : Byte}
    (hr : m.read (tableIndex v r b).toNat = none) (data : List Byte) :
    foldRam m v r (b :: data) = .error (tableIndex v r b) := by
  simp [foldRam, hr]

/-- How the fold in progress in `s` ends, once its bytes have given a register or an unwritten
index: FINISH publishes the register (41_fold.md R104), or the fault of 20_memory.md R43. -/
def foldEnd (s : State) (rest : List HostAction) :
    Except Byte Word → Host.Outcome State Fault Refusal
  | .ok r => .next (accept (publish { s with crc := r, pending := rest }))
  | .error index => .fault (.unwrittenEntry index)

/-- The FEEDs and the FINISH of a fold in progress, whatever the table RAM holds. -/
theorem run_feedAll_finish (data : List Byte) (rest : List HostAction) :
    ∀ {s : State}, s.active = true → s.pending = feedAll data ++ send .finish :: rest →
      Host.Core.run core (data.length + 1) s =
        foldEnd s rest (foldRam s.table s.cfg s.crc data) := by
  induction data with
  | nil =>
    intro s ha hp
    exact run_next ((step_send hp).trans (exec_finish_active ha)) 0
  | cons b data ih =>
    intro s ha hp
    have hs := step_send (i := .feed b) hp
    cases hr : s.table.read (tableIndex s.cfg s.crc b).toNat with
    | some entry =>
      rw [foldRam_cons_written hr, List.length_cons,
        run_next (hs.trans (exec_feed_written ha hr))]
      exact ih ha rfl
    | none =>
      rw [foldRam_cons_unwritten hr, List.length_cons,
        run_fault (hs.trans (exec_feed_unwritten ha hr))]
      rfl

/-- START, the FEEDs and FINISH from an IDLE state with a valid length, whatever the table RAM
holds: START overwrites CFG and CRC, so the outcome of the bytes is the same function of the table
RAM, the variant, the operand and the bytes from every such state (10_state.md R38). -/
theorem run_foldCommands {s : State} {v : Variant} {arg : Word} {data : List Byte}
    {rest : List HostAction} (ha : s.active = false) (hl : s.tbllen = Config.requiredLength)
    (hp : s.pending = foldCommands v arg data ++ rest) :
    Host.Core.run core (data.length + 2) s =
      foldEnd (latch v arg s) rest (foldRam s.table v (initV v arg) data) := by
  have hp' : s.pending = send (startOf v arg) :: (feedAll data ++ send .finish :: rest) := by
    simpa [foldCommands] using hp
  have hs := (step_send hp').trans (exec_startOf_accepted v arg ha hl)
  exact (run_next hs _).trans (run_feedAll_finish data rest rfl rfl)

/-- Settles O37: from both states the fold's outcome is the one `foldRam` gives over their common
table RAM. -/
theorem foldIgnoresEarlierState : Obligations.FoldIgnoresEarlierState := by
  intro v arg data s u hs hu htable hsl hul
  have runs : ∀ t : State, t.active = false → t.tbllen = 256 →
      Host.Core.run core (data.length + 2) { t with pending := foldCommands v arg data } =
        foldEnd (latch v arg t) [] (foldRam t.table v (initV v arg) data) := fun _ ha hl =>
    run_foldCommands ha hl (List.append_nil _).symm
  rw [runs s hs hsl, runs u hu hul, htable]
  cases foldRam u.table v (initV v arg) data with
  | ok r => exact ⟨rfl, rfl, rfl⟩
  | error index => exact rfl

/-! ## The read port -/

/-- STATUS as R27 lays it out: ACTIVE at bit 0, ERR at bits [7:4] and STICKY at bit 8. -/
theorem statusWord_toNat (s : State) :
    (statusWord s).toNat =
      (if s.active then 1 else 0) + 16 * s.err.toNat + (if s.sticky then 256 else 0) := by
  have layout : ∀ (sticky active : Bool) (err : BitVec 4),
      (0#55 ++ BitVec.ofBool sticky ++ err ++ 0#3 ++ BitVec.ofBool active).toNat =
        (if active then 1 else 0) + 16 * err.toNat + (if sticky then 256 else 0) := by decide
  exact layout s.sticky s.active s.err

/-- CFG as R30 lays it out: WCODE at bits [2:0] and DIR at bit 3. -/
theorem cfgWord_toNat (v : Variant) :
    (cfgWord v).toNat =
      (match v.width with | .w8 => 0 | .w16 => 1 | .w24 => 2 | .w32 => 3 | .w64 => 4) +
        (match v.dir with | .normal => 0 | .reflected => 8) := by
  obtain ⟨d, w⟩ := v
  cases d <;> cases w <;> rfl

theorem readPort_reserved {addr : BitVec 4} (h : 4 ≤ addr.toNat) (s : State) :
    readPort addr s = 0 := by
  obtain ⟨k, hk⟩ := Nat.exists_eq_add_of_le' h
  simp [readPort, hk]

theorem readPort_reset (addr : BitVec 4) : readPort addr State.reset = 0 := by
  revert addr
  decide

/-- Settles O8: the read is one step of the port, and each address by its own lemma. -/
theorem readPortReturnsTheRegister : Obligations.ReadPortReturnsTheRegister :=
  ⟨fun _ _ _ h => step_cons h,
    fun s => ⟨statusWord_toNat s, rfl, rfl, cfgWord_toNat s.cfg,
      fun _ h => readPort_reserved h s⟩,
    readPort_reset, fun _ _ _ _ => rfl⟩

/-! ## Reset -/

/-- Settles O10: the registers are the reset state's own fields, and START finds TBLLEN 0. -/
theorem resetLeavesTheStatedValues : Obligations.ResetLeavesTheStatedValues :=
  ⟨rfl, rfl, rfl, rfl, rfl, rfl, rfl, rfl, fun _ => rfl,
    fun v arg => exec_startOf_invalidTable v arg rfl (by decide)⟩

end Sys2Proof.Machine
end

section
/-! SUPPORT. Family 30_encoding.md: the rows of the opcode map and the words they match (R67); the
reserved encodings, as the decoder and the field-by-field check both find them (R69, R70); and NOP
(R71). -/

namespace Sys2Proof.Machine

/-! ## The rows of the opcode map -/

theorem decode_nop_word (arg : Word) : decode ⟨0x0000#16, arg⟩ = .row .nop :=
  Laws.decode_at 0x0000#16 0 rfl (by decide) (by decide)

theorem decode_finish_word (arg : Word) : decode ⟨0x5000#16, arg⟩ = .row .finish :=
  Laws.decode_at 0x5000#16 14 rfl (by decide) (by decide)

theorem decode_clrerr_word (arg : Word) : decode ⟨0x6000#16, arg⟩ = .row .clrerr :=
  Laws.decode_at 0x6000#16 15 rfl (by decide) (by decide)

/-- A byte placed in clear low bits: adding it and setting its bits are the same. -/
theorem add_byte_eq_or {base : BitVec 16} (clear : base.setWidth 8 = 0#8) (b : Byte) :
    base + b.setWidth 16 = base ||| b.setWidth 16 := by
  apply BitVec.add_eq_or_of_and_eq_zero
  apply BitVec.eq_of_getLsbD_eq
  intro i hi
  by_cases low : i < 8
  · have bit : base.getLsbD i = false := by
      simpa [low] using congrArg (fun x => x.getLsbD i) clear
    simp [bit]
  · simp [BitVec.getLsbD_of_ge b i (by omega)]

theorem decode_twr_word (idx : Byte) (arg : Word) :
    decode ⟨0x1000#16 + idx.setWidth 16, arg⟩ = .row (.twr idx arg) := by
  rw [add_byte_eq_or (by decide), Laws.twr_word]

theorem decode_feed_word (b : Byte) (arg : Word) :
    decode ⟨0x4000#16 + b.setWidth 16, arg⟩ = .row (.feed b) := by
  rw [add_byte_eq_or (by decide), Laws.feed_word]

/-- Two rows that accept one CMD agree wherever both masks look. -/
theorem patterns_agree_of_accepts {r q : Row} {cmd : BitVec 16} (hr : r.accepts cmd = true)
    (hq : q.accepts cmd = true) : r.pattern &&& q.mask = q.pattern &&& r.mask := by
  rw [← beq_iff_eq.mp hr, ← beq_iff_eq.mp hq, BitVec.and_assoc, BitVec.and_assoc,
    BitVec.and_comm r.mask]

/-- Any two rows of the opcode map differ in a bit that both masks look at. -/
theorem rows_patterns_differ :
    rows.Pairwise (fun r q => r.pattern &&& q.mask ≠ q.pattern &&& r.mask) := by decide

theorem length_le_one_of_pairwise_false {α : Type} {l : List α}
    (apart : l.Pairwise (fun _ _ => False)) : l.length ≤ 1 := by
  match l, apart with
  | [], _ => exact Nat.zero_le 1
  | [_], _ => exact Nat.le_refl 1
  | _ :: _ :: _, apart => exact (List.rel_of_pairwise_cons apart List.mem_cons_self).elim

/-- Two accepting rows would agree wherever both masks look, and no two rows do. -/
theorem accepting_rows_length_le_one (cmd : BitVec 16) :
    (rows.filter (fun r => r.accepts cmd)).length ≤ 1 :=
  length_le_one_of_pairwise_false (List.pairwise_filter.mpr
    (rows_patterns_differ.imp fun differ hr hq => differ (patterns_agree_of_accepts hr hq)))

/-! ## The legal CMD values -/

/-- The legal CMD values as numbers, rising, in the runs of consecutive values that the rows of
30_encoding.md R67 match. -/
def legalNumbers : List Nat :=
  [(0x0000, 1), (0x1000, 256), (0x2000, 1), (0x3000, 5), (0x3008, 5), (0x4000, 256), (0x5000, 1),
    (0x6000, 1)].flatMap (fun run => List.range' run.1 run.2)

theorem mem_legalNumbers (n : Nat) :
    n ∈ legalNumbers ↔
      n = 0x0000 ∨ n / 256 = 0x10 ∨ n = 0x2000 ∨ (0x3000 ≤ n ∧ n ≤ 0x3004) ∨
        (0x3008 ≤ n ∧ n ≤ 0x300C) ∨ n / 256 = 0x40 ∨ n = 0x5000 ∨ n = 0x6000 := by
  simp only [legalNumbers, List.mem_flatMap, List.mem_cons, List.not_mem_nil, or_false,
    exists_eq_or_imp, exists_eq_left, List.mem_range'_1]
  omega

theorem legalNumbers_lt {n : Nat} (h : n ∈ legalNumbers) : n < 2 ^ 16 := by
  rw [mem_legalNumbers] at h
  omega

theorem legalNumbers_length : legalNumbers.length = 526 := by
  simp [legalNumbers]

/-- Each run has no value twice, and ends below the first value of the runs after it. -/
theorem legalNumbers_nodup : legalNumbers.Nodup := by
  refine List.nodup_flatMap.mpr ⟨fun run _ => List.nodup_range', ?_⟩
  have apart : ∀ {r q : Nat × Nat}, r.1 + r.2 ≤ q.1 →
      List.Disjoint (List.range' r.1 r.2) (List.range' q.1 q.2) := by
    intro r q below n hr hq
    rw [List.mem_range'_1] at hr hq
    omega
  exact List.Pairwise.imp apart (by decide)

/-- The legal CMD values. -/
def legalCmds : List (BitVec 16) := legalNumbers.map (BitVec.ofNat 16)

theorem mem_legalCmds (cmd : BitVec 16) : cmd ∈ legalCmds ↔ cmd.toNat ∈ legalNumbers := by
  rw [legalCmds, List.mem_map]
  constructor
  · rintro ⟨n, hn, rfl⟩
    rwa [BitVec.toNat_ofNat, Nat.mod_eq_of_lt (legalNumbers_lt hn)]
  · exact fun h => ⟨cmd.toNat, h, (BitVec.ofNat_toNat 16 cmd).trans (BitVec.setWidth_eq cmd)⟩

theorem legalCmds_nodup : legalCmds.Nodup := by
  refine legalNumbers_nodup.map_on fun m hm n hn same => ?_
  have same := congrArg BitVec.toNat same
  rwa [BitVec.toNat_ofNat, BitVec.toNat_ofNat, Nat.mod_eq_of_lt (legalNumbers_lt hm),
    Nat.mod_eq_of_lt (legalNumbers_lt hn)] at same

theorem legalCmds_length : legalCmds.length = 526 := by
  rw [legalCmds, List.length_map, legalNumbers_length]

theorem decode_ne_illegal_iff (c : Command) : decode c ≠ .illegal ↔ c.cmd ∈ legalCmds := by
  rw [mem_legalCmds, mem_legalNumbers, Ne, decode_illegal_iff]
  omega

/-- Settles O2: each row by its own words, the rows pairwise by their masks, and the legal values as
the list of their runs. -/
theorem opcodeMapIsTheSpecs : Obligations.OpcodeMapIsTheSpecs :=
  ⟨fun arg =>
    ⟨decode_nop_word arg, fun idx => decode_twr_word idx arg, decode_encode (.tlen arg),
      decode_encode (.startN8 arg), decode_encode (.startN16 arg), decode_encode (.startN24 arg),
      decode_encode (.startN32 arg), decode_encode (.startN64 arg), decode_encode (.startR8 arg),
      decode_encode (.startR16 arg), decode_encode (.startR24 arg), decode_encode (.startR32 arg),
      decode_encode (.startR64 arg), fun b => decode_feed_word b arg, decode_finish_word arg,
      decode_clrerr_word arg⟩,
    accepting_rows_length_le_one,
    legalCmds, legalCmds_nodup, legalCmds_length, decode_ne_illegal_iff⟩

/-! ## The reserved encodings -/

/-- A reserved bit of CMD is set: one of CMD[11:8], of CMD[7:0] in NOP, TLEN, FINISH and CLRERR, or
of CMD[7:4] in START (30_encoding.md R69). -/
def ReservedBitSet (cmd : BitVec 16) : Prop :=
  cmd.extractLsb' 8 4 ≠ 0#4 ∨
  (cmd.extractLsb' 12 4 ∈ [0x0#4, 0x2#4, 0x5#4, 0x6#4] ∧ cmd.extractLsb' 0 8 ≠ 0#8) ∨
  (cmd.extractLsb' 12 4 = 0x3#4 ∧ cmd.extractLsb' 4 4 ≠ 0#4)

/-- CMD is a START with a reserved WCODE (30_encoding.md R66). -/
def ReservedWidth (cmd : BitVec 16) : Prop :=
  cmd.extractLsb' 12 4 = 0x3#4 ∧ 5 ≤ (cmd.extractLsb' 0 3).toNat

theorem opcodeAssigned_eq_false_iff (c : Command) :
    c.opcodeAssigned = false ↔ 7 ≤ (c.cmd.extractLsb' 12 4).toNat := by
  rw [Command.opcodeAssigned, decide_eq_false_iff_not]
  omega

theorem reservedBitsClear_eq_false_iff (c : Command) :
    c.reservedBitsClear = false ↔ ReservedBitSet c.cmd := by
  have opc (k : Nat) : c.cmd.extractLsb' 12 4 = BitVec.ofNat 4 k ↔
      (c.cmd.extractLsb' 12 4).toNat = k % 16 := by
    rw [← BitVec.toNat_inj, BitVec.toNat_ofNat]
  simp only [Command.reservedBitsClear, ReservedBitSet, Bool.and_eq_false_iff, beq_eq_false_iff_ne,
    List.mem_cons, List.not_mem_nil, or_false, opc]
  refine or_congr_right ?_
  split <;> simp_all

theorem widthAssigned_eq_false_iff (c : Command) :
    c.widthAssigned = false ↔ ReservedWidth c.cmd := by
  simp only [Command.widthAssigned, ReservedWidth, Bool.or_eq_false_iff, bne_eq_false_iff_eq,
    decide_eq_false_iff_not, ← BitVec.toNat_inj]
  exact and_congr_right fun _ => Nat.not_le

theorem wellFormed_eq_false_iff (c : Command) :
    c.wellFormed = false ↔
      7 ≤ (c.cmd.extractLsb' 12 4).toNat ∨ ReservedBitSet c.cmd ∨ ReservedWidth c.cmd := by
  rw [Command.wellFormed, Bool.and_eq_false_iff, Bool.and_eq_false_iff, or_assoc,
    opcodeAssigned_eq_false_iff, reservedBitsClear_eq_false_iff, widthAssigned_eq_false_iff]

/-- A CMD matches no row exactly where R69 and R70 reserve it. -/
theorem decode_illegal_iff_reserved (c : Command) :
    decode c = .illegal ↔
      7 ≤ (c.cmd.extractLsb' 12 4).toNat ∨ ReservedBitSet c.cmd ∨ ReservedWidth c.cmd := by
  have bound := c.cmd.isLt
  simp only [decode_illegal_iff, ReservedBitSet, ReservedWidth, Ne, List.mem_cons,
    List.not_mem_nil, or_false, field_eq, field_toNat]
  omega

/-- Settles O3: the decoder and the check answer the same reserved encodings, and the port rejects
what the decoder does not match. -/
theorem illegalExactlyTheReservedEncodings : Obligations.IllegalExactlyTheReservedEncodings := by
  intro c
  refine ⟨?_, ?_, fun illegal s => issue_illegal illegal s⟩
  · simpa only [ReservedBitSet, ReservedWidth, or_assoc] using decode_illegal_iff_reserved c
  · rw [decode_illegal_iff_reserved, wellFormed_eq_false_iff]

/-! ## NOP -/

/-- The only word with OPC 0 that matches a row is the all-zero one (30_encoding.md R69, R71). -/
theorem decode_illegal_of_opc_zero {c : Command} (opc : c.cmd.extractLsb' 12 4 = 0x0#4)
    (ne : c.cmd ≠ 0x0000#16) : decode c = .illegal := by
  have bound := c.cmd.isLt
  rw [field_eq] at opc
  rw [Ne, cmd_eq] at ne
  rw [decode_illegal_iff]
  omega

/-- Settles O12: the word 0x0000 and its neighbours by the decoder, and NOP is an accepted command
with no effect of its own. -/
theorem nopClearsOnlyErr : Obligations.NopClearsOnlyErr :=
  ⟨decode_nop_word, fun _ opc ne => decode_illegal_of_opc_zero opc ne, fun _ => rfl⟩

end Sys2Proof.Machine
end

section
/-! SUPPORT. Family 40_table_setup.md: the reserved words of the commands with a byte field and of those
with no field (R69), and what TWR and TLEN do in IDLE and in a fold (R80, R81). -/

namespace Sys2Proof.Machine

/-! ## Reserved words -/

/-- CMD[11:8] is reserved in every command (30_encoding.md R69). -/
theorem decode_illegal_of_high_bits {c : Command} (set : c.cmd.extractLsb' 8 4 ≠ 0#4) :
    decode c = .illegal :=
  (decode_illegal_iff_reserved c).mpr (.inr (.inl (.inl set)))

/-- NOP, TLEN, FINISH and CLRERR have no field: of the words with their OPC only the one with CMD[11:0]
all zero matches a row (30_encoding.md R69). -/
theorem decode_illegal_of_fieldless_opc {c : Command} {k : Nat}
    (fieldless : k = 0 ∨ k = 2 ∨ k = 5 ∨ k = 6)
    (opc : c.cmd.extractLsb' 12 4 = BitVec.ofNat 4 k)
    (ne : c.cmd ≠ BitVec.ofNat 16 (k * 0x1000)) : decode c = .illegal := by
  have bound := c.cmd.isLt
  rw [field_eq] at opc
  rw [Ne, cmd_eq] at ne
  rw [decode_illegal_iff]
  omega

/-! ## TWR and TLEN by phase -/

theorem whileIdle_of_idle {s : State} (effect : State → State) (idle : s.active = false) :
    whileIdle effect s = accept (effect s) := by
  simp [whileIdle, idle]

theorem whileIdle_of_active {s : State} (effect : State → State) (active : s.active = true) :
    whileIdle effect s = reject .locked s := by
  simp [whileIdle, active]

theorem exec_twr_idle {s : State} (idx : Byte) (value : Word) (idle : s.active = false) :
    exec (.twr idx value) s = .next (accept (writeEntry idx value s)) :=
  congrArg Host.Outcome.next (whileIdle_of_idle (writeEntry idx value) idle)

theorem exec_twr_locked {s : State} (idx : Byte) (value : Word) (active : s.active = true) :
    exec (.twr idx value) s = .next (reject .locked s) :=
  congrArg Host.Outcome.next (whileIdle_of_active (writeEntry idx value) active)

theorem exec_tlen_idle {s : State} (count : Word) (idle : s.active = false) :
    exec (.tlen count) s = .next (accept (setLength count s)) :=
  congrArg Host.Outcome.next (whileIdle_of_idle (setLength count) idle)

theorem exec_tlen_locked {s : State} (count : Word) (active : s.active = true) :
    exec (.tlen count) s = .next (reject .locked s) :=
  congrArg Host.Outcome.next (whileIdle_of_active (setLength count) active)

/-- TLEN checks nothing; the length it declares is checked by the START after it (41_fold.md R102). -/
theorem exec_startOf_after_tlen {s t : State} {count : Word} (v : Variant) (arg : Word)
    (idle : s.active = false) (wrong : count ≠ Config.requiredLength)
    (declared : exec (.tlen count) s = .next t) :
    exec (startOf v arg) t = .next (reject .invalidTable t) := by
  rw [exec_tlen_idle count idle] at declared
  injection declared with declared
  subst declared
  exact exec_startOf_invalidTable v arg idle wrong

/-! ## The obligations -/

/-- Settles O14: the words of TWR by the decoder, and its effect in IDLE by the read after a write. -/
theorem twrWritesOneEntry : Obligations.TwrWritesOneEntry :=
  ⟨decode_twr_word, fun _ _ set => decode_illegal_of_high_bits set,
    fun idx value s idle =>
      ⟨accept (writeEntry idx value s), exec_twr_idle idx value idle,
        fun a => memory_read_write s.table idx.toNat a value, rfl⟩,
    fun idx value _ active => exec_twr_locked idx value active⟩

/-- Settles O15: the word 0x2000 and its neighbours by the decoder, TLEN by its phase, and the count
it declares by the check of the next START. -/
theorem tlenDeclaresTheLength : Obligations.TlenDeclaresTheLength :=
  ⟨fun arg => decode_encode (.tlen arg),
    fun _ opc ne => decode_illegal_of_fieldless_opc (.inr (.inl rfl)) opc ne,
    fun count _ idle => exec_tlen_idle count idle,
    fun _ _ _ v arg idle wrong declared => exec_startOf_after_tlen v arg idle wrong declared,
    fun count _ active => exec_tlen_locked count active⟩

end Sys2Proof.Machine
end

section
/-! SUPPORT. Family 41_fold.md: what the ten rows of the policy table have in common (R85), START and
FINISH (R102, R104), the ten variant rules (R92 to R101), and the laws of the fold (R106 to R114).
The width W of the policy row is the number of register bits that reach a result: in the normal
direction no step reads a bit above them, and in the reflected one none of them is set. -/

namespace Sys2Proof.Machine

/-! ## Bits that truncation keeps and drops -/

theorem trunc_trunc_of_le {m n : Nat} (h : m ≤ n) (x : Word) : trunc m (trunc n x) = trunc m x := by
  apply BitVec.eq_of_toNat_eq
  simp only [trunc_toNat]
  exact Nat.mod_mod_of_dvd _ (Nat.pow_dvd_pow 2 h)

@[simp] theorem trunc_zero (n : Nat) : trunc n 0 = 0 := trunc_of_lt (Nat.two_pow_pos n)

/-- A left shift never moves a bit down into the low `n`. -/
theorem trunc_shiftLeft_trunc (n k : Nat) (x : Word) :
    trunc n (trunc n x <<< k) = trunc n (x <<< k) := by
  apply BitVec.eq_of_getLsbD_eq
  intro i _
  simp only [trunc_getLsbD, BitVec.getLsbD_shiftLeft]
  by_cases hi : i < n
  · simp [hi, show i - k < n by omega]
  · simp [hi]

theorem trunc_shiftLeft_eq_zero {n k : Nat} (h : n ≤ k) (x : Word) : trunc n (x <<< k) = 0 := by
  apply BitVec.eq_of_getLsbD_eq
  intro i _
  simp only [trunc_getLsbD, BitVec.getLsbD_shiftLeft, BitVec.ofNat_eq_ofNat, BitVec.getLsbD_zero]
  by_cases hi : i < n
  · simp [show i < k by omega]
  · simp [hi]

theorem ushiftRight_eq_zero_of_lt {x : Word} {k : Nat} (h : x.toNat < 2 ^ k) : x >>> k = 0 := by
  apply BitVec.eq_of_toNat_eq
  rw [BitVec.toNat_ushiftRight, Nat.shiftRight_eq_zero _ _ h, BitVec.ofNat_eq_ofNat,
    BitVec.toNat_ofNat, Nat.zero_mod]

/-- A field below the cut is not touched by truncation. -/
theorem extractLsb'_trunc {n low len : Nat} (h : low + len ≤ n) (x : Word) :
    (trunc n x).extractLsb' low len = x.extractLsb' low len := by
  apply BitVec.eq_of_getLsbD_eq
  intro i hi
  simp [hi, show low + i < n by omega]

/-- A field above every set bit is 0. -/
theorem extractLsb'_eq_zero_of_lt {n low : Nat} {x : Word} (h : x.toNat < 2 ^ n) (above : n ≤ low)
    (len : Nat) : x.extractLsb' low len = 0#len := by
  apply BitVec.eq_of_toNat_eq
  rw [BitVec.extractLsb'_toNat, BitVec.toNat_ofNat,
    Nat.shiftRight_eq_zero _ _ (h.trans_le (Nat.pow_le_pow_right Nat.two_pos above))]

/-! ## The policy table, one fact for the ten rows -/

theorem width_le_container (v : Variant) : (policy v).width ≤ container v := by
  obtain ⟨d, w⟩ := v
  cases d <;> cases w <;> decide

/-- The extracted byte lies within the width: it never reads the scratch byte of N24 (R86). -/
theorem extractLow_add_le_width (v : Variant) : (policy v).extractLow + 8 ≤ (policy v).width := by
  obtain ⟨d, w⟩ := v
  cases d <;> cases w <;> decide

theorem extractLow_normal (w : Width) :
    (policy ⟨.normal, w⟩).extractLow = (policy ⟨.normal, w⟩).width - 8 := by
  cases w <;> rfl

theorem extractLow_reflected (w : Width) : (policy ⟨.reflected, w⟩).extractLow = 0 := by
  cases w <;> rfl

/-- R24 is the one reflected variant whose container is wider than its width. -/
theorem container_reflected {w : Width} (h : (⟨.reflected, w⟩ : Variant) ≠ ⟨.reflected, .w24⟩) :
    container ⟨.reflected, w⟩ = (policy ⟨.reflected, w⟩).width := by
  cases w
  case w24 => exact absurd rfl h
  all_goals rfl

theorem shifted_normal (w : Width) (r : Word) :
    shifted ⟨.normal, w⟩ r = trunc (container ⟨.normal, w⟩) (r <<< 8) := by
  cases w <;> rfl

theorem shifted_reflected (w : Width) (r : Word) : shifted ⟨.reflected, w⟩ r = r >>> 8 := by
  cases w <;> rfl

theorem initV_normal (w : Width) (a : Word) :
    initV ⟨.normal, w⟩ a = trunc (container ⟨.normal, w⟩) a := by
  cases w <;> rfl

/-- The pre-loop mask of R24 cuts ARG to the width, as the container does in the other four (R91). -/
theorem initV_reflected (w : Width) (a : Word) :
    initV ⟨.reflected, w⟩ a = trunc (policy ⟨.reflected, w⟩).width a := by
  cases w
  case w24 => exact (and_mask24 _).trans (trunc_trunc_of_le (by decide) a)
  all_goals rfl

theorem finV_n24 (r : Word) : finV ⟨.normal, .w24⟩ r = trunc 24 r := and_mask24 r

theorem finV_of_ne_n24 {v : Variant} (h : v ≠ ⟨.normal, .w24⟩) (r : Word) : finV v r = r := by
  obtain ⟨d, w⟩ := v
  cases d <;> cases w
  case normal.w24 => exact absurd rfl h
  all_goals rfl

theorem finV_reflected (w : Width) (r : Word) : finV ⟨.reflected, w⟩ r = r :=
  finV_of_ne_n24 (by simp) r

/-- The post-loop mask of N24 cuts its register to the width; the other four already fit (R90). -/
theorem finV_normal {w : Width} {r : Word} (h : r.toNat < 2 ^ container ⟨.normal, w⟩) :
    finV ⟨.normal, w⟩ r = trunc (policy ⟨.normal, w⟩).width r := by
  cases w
  case w24 => exact finV_n24 r
  all_goals exact (trunc_of_lt h).symm

/-- With no byte between them, `init_V` and `fin_V` cut ARG to the width (R106). -/
theorem finV_initV (v : Variant) (a : Word) : finV v (initV v a) = trunc (policy v).width a := by
  obtain ⟨d, w⟩ := v
  cases d with
  | normal =>
    rw [finV_normal (initV_lt _ a), initV_normal, trunc_trunc_of_le (width_le_container _)]
  | reflected => rw [finV_reflected, initV_reflected]

theorem initV_eq_of_trunc_eq {v : Variant} {x y : Word}
    (h : trunc (container v) x = trunc (container v) y) : initV v x = initV v y :=
  congrArg (applyMask (policy v).preMask) h

theorem finV_lt_resultBits {v : Variant} {r : Word} (h : r.toNat < 2 ^ container v) :
    (finV v r).toNat < 2 ^ resultBits v := by
  unfold resultBits
  split
  case isTrue n24 =>
    rw [n24, finV_n24]
    exact trunc_lt 24 r
  case isFalse => exact finV_lt h

theorem foldV_lt (T : Byte → Word) (v : Variant) (data : List Byte) (a : Word) :
    (foldV T v data a).toNat < 2 ^ resultBits v :=
  finV_lt_resultBits (foldBytes_lt T data (initV_lt v a))

/-! ## One byte -/

theorem extractedByte_eq (v : Variant) (r : Word) :
    extractedByte v r = r.extractLsb' (policy v).extractLow 8 := by
  apply BitVec.eq_of_toNat_eq
  rw [extractedByte, BitVec.toNat_setWidth, BitVec.toNat_ushiftRight, BitVec.extractLsb'_toNat]

theorem extractedByte_toNat (v : Variant) (r : Word) :
    (extractedByte v r).toNat = r.toNat / 2 ^ (policy v).extractLow % 256 := by
  rw [extractedByte_eq, BitVec.extractLsb'_toNat, Nat.shiftRight_eq_div_pow]

theorem extractedByte_trunc_width (v : Variant) (r : Word) :
    extractedByte v (trunc (policy v).width r) = extractedByte v r := by
  rw [extractedByte_eq, extractedByte_eq, extractLsb'_trunc (extractLow_add_le_width v)]

theorem foldByte_normal (T : Byte → Word) (w : Width) (r : Word) (b : Byte) :
    foldByte T ⟨.normal, w⟩ r b =
      trunc (container ⟨.normal, w⟩) (T (b ^^^ extractedByte ⟨.normal, w⟩ r)) ^^^
        trunc (container ⟨.normal, w⟩) (r <<< 8) := by
  rw [foldByte, stepV, tableIndex, shifted_normal]

theorem foldByte_reflected (T : Byte → Word) (w : Width) (r : Word) (b : Byte) :
    foldByte T ⟨.reflected, w⟩ r b =
      trunc (container ⟨.reflected, w⟩) (T (b ^^^ extractedByte ⟨.reflected, w⟩ r)) ^^^
        (r >>> 8) := by
  rw [foldByte, stepV, tableIndex, shifted_reflected]

/-- Settles O21: the extracted byte by the policy row's position, and the update by its direction. -/
theorem genericUpdateOfBothDirections : Obligations.GenericUpdateOfBothDirections := by
  intro T w r b
  refine ⟨?_, ?_, foldByte_normal T w r b, foldByte_reflected T w r b,
    fun h => stepV_lt _ h, fun h => stepV_lt _ h⟩
  · rw [extractedByte_toNat, extractLow_normal]
  · rw [extractedByte_toNat, extractLow_reflected, Nat.pow_zero, Nat.div_one]

/-! ## What a fold cannot see -/

/-- A step reads the table through the container alone. -/
theorem foldBytes_congr_table {T U : Byte → Word} {v : Variant}
    (h : ∀ i, trunc (container v) (T i) = trunc (container v) (U i)) (r : Word) (data : List Byte) :
    foldBytes T v r data = foldBytes U v r data := by
  refine foldBytes_related (R := Eq) ?_ data rfl
  rintro r _ b rfl
  exact congrArg (· ^^^ shifted v r) (h _)

/-- Two words agree on the bits within the width of the variant. -/
def AgreeInWidth (v : Variant) (x y : Word) : Prop :=
  trunc (policy v).width x = trunc (policy v).width y

theorem agreeInWidth_trunc_container {v : Variant} {x y : Word} (h : AgreeInWidth v x y) :
    AgreeInWidth v (trunc (container v) x) (trunc (container v) y) := by
  simpa only [AgreeInWidth, trunc_trunc_of_le (width_le_container v)] using h

theorem extractedByte_congr {v : Variant} {r q : Word} (h : AgreeInWidth v r q) :
    extractedByte v r = extractedByte v q := by
  rw [← extractedByte_trunc_width, h, extractedByte_trunc_width]

/-- In the normal direction the bits within the width after a byte depend on none above it, in the
register or in the table (R107). -/
theorem foldByte_normal_agree {T U : Byte → Word} {w : Width} {r q : Word}
    (entries : ∀ i, AgreeInWidth ⟨.normal, w⟩ (T i) (U i)) (regs : AgreeInWidth ⟨.normal, w⟩ r q)
    (b : Byte) :
    AgreeInWidth ⟨.normal, w⟩ (foldByte T ⟨.normal, w⟩ r b) (foldByte U ⟨.normal, w⟩ q b) := by
  have shift : AgreeInWidth ⟨.normal, w⟩ (r <<< 8) (q <<< 8) := by
    rw [AgreeInWidth, ← trunc_shiftLeft_trunc, regs, trunc_shiftLeft_trunc]
  rw [foldByte_normal, foldByte_normal, extractedByte_congr regs, AgreeInWidth, trunc_xor,
    trunc_xor, agreeInWidth_trunc_container (entries _), agreeInWidth_trunc_container shift]

/-- So neither does what a normal fold publishes. -/
theorem finV_foldBytes_normal_congr {T U : Byte → Word} {w : Width} {r q : Word}
    (entries : ∀ i, AgreeInWidth ⟨.normal, w⟩ (T i) (U i))
    (hr : r.toNat < 2 ^ container ⟨.normal, w⟩) (hq : q.toNat < 2 ^ container ⟨.normal, w⟩)
    (regs : AgreeInWidth ⟨.normal, w⟩ r q) (data : List Byte) :
    finV ⟨.normal, w⟩ (foldBytes T ⟨.normal, w⟩ r data) =
      finV ⟨.normal, w⟩ (foldBytes U ⟨.normal, w⟩ q data) := by
  rw [finV_normal (foldBytes_lt T data hr), finV_normal (foldBytes_lt U data hq)]
  exact foldBytes_related (R := AgreeInWidth ⟨.normal, w⟩)
    (fun _ _ b agree => foldByte_normal_agree entries agree b) data regs

/-- Settles O42: by what a step reads of the table, and for N24 by the low 24 bits of the register. -/
theorem highEntryBitsNeverMatter : Obligations.HighEntryBitsNeverMatter := by
  intro T U v data arg
  refine ⟨fun h => congrArg (finV v) (foldBytes_congr_table h _ data), ?_⟩
  rintro rfl h
  exact finV_foldBytes_normal_congr (w := .w24) h (initV_lt _ arg) (initV_lt _ arg) rfl data

/-- Settles O45: `init_V` drops the bits above the container; of the others above bit 23 R24 drops
them at START, and N24 never reads them. -/
theorem highArgBitsNeverMatter : Obligations.HighArgBitsNeverMatter := by
  rintro T ⟨d, w⟩ data x y
  have same_register : initV ⟨d, w⟩ x = initV ⟨d, w⟩ y →
      foldV T ⟨d, w⟩ data x = foldV T ⟨d, w⟩ data y :=
    congrArg (fun r => finV ⟨d, w⟩ (foldBytes T ⟨d, w⟩ r data))
  refine ⟨fun h => same_register (initV_eq_of_trunc_eq h), ?_⟩
  rintro rfl low
  cases d with
  | normal =>
    refine finV_foldBytes_normal_congr (fun _ => rfl) (initV_lt _ x) (initV_lt _ y) ?_ data
    rw [initV_normal, initV_normal]
    exact agreeInWidth_trunc_container low
  | reflected =>
    apply same_register
    rw [initV_reflected, initV_reflected]
    exact low

/-! ## The reflected register stays within its width -/

/-- Every entry a reflected variant reads is within the width: for R24 by the bound on the table, and
for the others by the container. -/
theorem entry_lt_reflected {T : Byte → Word} {w : Width}
    (h : (⟨.reflected, w⟩ : Variant) ≠ ⟨.reflected, .w24⟩ ∨ Bounded T) (i : Byte) :
    (trunc (container ⟨.reflected, w⟩) (T i)).toNat < 2 ^ (policy ⟨.reflected, w⟩).width := by
  by_cases r24 : (⟨.reflected, w⟩ : Variant) = ⟨.reflected, .w24⟩
  · rw [r24]
    exact Nat.lt_succ_of_le (h.resolve_left (fun ne => ne r24) i)
  · rw [container_reflected r24]
    exact trunc_lt _ _

theorem foldBytes_reflected_lt {T : Byte → Word} {w : Width}
    (h : (⟨.reflected, w⟩ : Variant) ≠ ⟨.reflected, .w24⟩ ∨ Bounded T) (a : Word)
    (data : List Byte) :
    (foldBytes T ⟨.reflected, w⟩ (initV ⟨.reflected, w⟩ a) data).toNat <
      2 ^ (policy ⟨.reflected, w⟩).width := by
  refine foldBytes_induct (P := fun r => r.toNat < 2 ^ (policy ⟨.reflected, w⟩).width) ?_ data ?_
  · intro r b hr
    have right : (r >>> 8).toNat < 2 ^ (policy ⟨.reflected, w⟩).width := by
      rw [BitVec.toNat_ushiftRight]
      exact (Nat.shiftRight_le _ _).trans_lt hr
    rw [foldByte_reflected, BitVec.toNat_xor]
    exact Nat.xor_lt_two_pow (entry_lt_reflected h _) right
  · rw [initV_reflected]
    exact trunc_lt _ a

theorem foldBytes_r24_le {T : Byte → Word} (bounded : Bounded T) (a : Word) (data : List Byte) :
    (foldBytes T ⟨.reflected, .w24⟩ (initV ⟨.reflected, .w24⟩ a) data).toNat ≤ 0xFFFFFF :=
  Nat.le_of_lt_succ (foldBytes_reflected_lt (.inr bounded) a data)

/-- The example of R112: one byte over the table whose every entry is 0xFF000000. -/
theorem foldV_r24_unbounded_example :
    foldV (fun _ => 0xFF000000) ⟨.reflected, .w24⟩ [0x00] 0 = 0xFF000000 := by decide

/-- Settles O44: the register of R24 within 24 bits, and the rule's example. -/
theorem reflectedTwentyFourBitBound : Obligations.ReflectedTwentyFourBitBound :=
  ⟨fun _ data arg bounded => foldBytes_r24_le bounded arg data, foldV_r24_unbounded_example⟩

/-- Settles O43: the mask of FINISH, whatever the register. -/
theorem normalTwentyFourBitBound : Obligations.NormalTwentyFourBitBound := by
  refine ⟨fun T data arg => Nat.le_of_lt_succ (foldV_lt T _ data arg), ?_⟩
  intro s t active n24 done
  rw [exec_finish_active active] at done
  injection done with done
  rw [← done, accept_result, publish_result, n24, finV_n24]
  exact Nat.le_of_lt_succ (trunc_lt 24 s.crc)

/-! ## Composition -/

/-- Settles O39: restarting from a result gives the register back in the reflected direction, and in
the normal one a register with the same low W bits. -/
theorem foldsComposeIncrementally : Obligations.FoldsComposeIncrementally := by
  rintro T ⟨d, w⟩ A B arg h
  simp only [foldV, foldBytes_append]
  cases d with
  | normal =>
    have hr := foldBytes_lt T A (initV_lt ⟨.normal, w⟩ arg)
    refine finV_foldBytes_normal_congr (fun _ => rfl) (initV_lt _ _) hr ?_ B
    rw [AgreeInWidth, initV_normal, trunc_trunc_of_le (width_le_container _), finV_normal hr,
      trunc_trunc]
  | reflected =>
    have restart : ∀ {r : Word}, r.toNat < 2 ^ (policy ⟨.reflected, w⟩).width →
        initV ⟨.reflected, w⟩ (finV ⟨.reflected, w⟩ r) = r := by
      intro r hr
      rw [finV_reflected, initV_reflected, trunc_of_lt hr]
    rw [restart (foldBytes_reflected_lt h arg A)]

/-- Settles O40: the values of R108's example, by evaluation. -/
theorem unboundedTableBreaksComposition : Obligations.UnboundedTableBreaksComposition := by
  unfold Obligations.UnboundedTableBreaksComposition
  rw [foldV_r24_unbounded_example]
  decide

/-! ## The empty fold -/

theorem foldV_nil (T : Byte → Word) (v : Variant) (a : Word) :
    foldV T v [] a = trunc (policy v).width a := finV_initV v a

theorem policy_width (v : Variant) :
    (policy v).width =
      match v.width with | .w8 => 8 | .w16 => 16 | .w24 => 24 | .w32 => 32 | .w64 => 64 := by
  obtain ⟨d, w⟩ := v
  cases d <;> cases w <;> rfl

theorem exec_finish_after_startOf {s t : State} {v : Variant} {arg : Word}
    (idle : s.active = false) (length : s.tbllen = Config.requiredLength)
    (started : exec (startOf v arg) s = .next t) :
    exec .finish t = .next (accept (publish (accept (latch v arg s)))) := by
  rw [exec_startOf_accepted v arg idle length] at started
  injection started with started
  rw [← started]
  exact exec_finish_active rfl

/-- Settles O38: ARG cut to the width, and START and FINISH by their accepted cases. -/
theorem emptyFoldTruncatesArg : Obligations.EmptyFoldTruncatesArg := by
  refine ⟨?_, ?_, ?_⟩
  · rintro T ⟨d, w⟩ arg
    rw [foldV_nil, policy_width]
    cases w
    case w64 => exact trunc_64 arg
    all_goals rfl
  · intro T v arg s idle length
    have started := exec_startOf_accepted v arg idle length
    exact ⟨_, _, started, exec_finish_after_startOf idle length started, rfl⟩
  · intro T v arg w24 small
    rw [foldV_nil, policy_width, w24]
    exact trunc_of_lt small

/-! ## Width 8 -/

theorem foldByte_n8 (T : Byte → Word) (r : Word) (b : Byte) :
    foldByte T ⟨.normal, .w8⟩ r b = trunc 8 (T (b ^^^ r.setWidth 8)) := by
  have lost : trunc (container ⟨.normal, .w8⟩) (r <<< 8) = 0#64 :=
    trunc_shiftLeft_eq_zero (Nat.le_refl 8) r
  rw [foldByte_normal, lost, BitVec.xor_zero]
  rfl

theorem foldByte_r8 (T : Byte → Word) {r : Word} (fits : r.toNat < 2 ^ 8) (b : Byte) :
    foldByte T ⟨.reflected, .w8⟩ r b = trunc 8 (T (b ^^^ r.setWidth 8)) := by
  have lost : r >>> 8 = 0#64 := ushiftRight_eq_zero_of_lt fits
  rw [foldByte_reflected, lost, BitVec.xor_zero]
  rfl

theorem foldBytes_n8_eq_r8 (T : Byte → Word) {r : Word} (fits : r.toNat < 2 ^ 8)
    (data : List Byte) :
    foldBytes T ⟨.normal, .w8⟩ r data = foldBytes T ⟨.reflected, .w8⟩ r data := by
  suffices h : foldBytes T ⟨.normal, .w8⟩ r data = foldBytes T ⟨.reflected, .w8⟩ r data ∧
      (foldBytes T ⟨.normal, .w8⟩ r data).toNat < 2 ^ 8 from h.1
  refine foldBytes_related (R := fun r q => r = q ∧ r.toNat < 2 ^ 8) ?_ data ⟨rfl, fits⟩
  rintro r _ b ⟨rfl, fits⟩
  rw [foldByte_n8, foldByte_r8 T fits]
  exact ⟨rfl, trunc_lt 8 _⟩

/-- Settles O41: both shifts of a register below 2^8 are lost, so a step is one table entry. -/
theorem directionIrrelevantAtWidthEight : Obligations.DirectionIrrelevantAtWidthEight :=
  ⟨fun _ => rfl,
    fun T r b fits => ⟨(foldByte_n8 T r b).trans (foldByte_r8 T fits b).symm, foldByte_n8 T r b⟩,
    fun _ => rfl, fun T data arg => foldBytes_n8_eq_r8 T (initV_lt ⟨.normal, .w8⟩ arg) data⟩

/-! ## The all-zero table -/

theorem foldBytes_zero_normal (w : Width) (data : List Byte) :
    ∀ r : Word,
      foldBytes (fun _ => 0) ⟨.normal, w⟩ (trunc (container ⟨.normal, w⟩) r) data =
        trunc (container ⟨.normal, w⟩) (r <<< (8 * data.length)) := by
  induction data with
  | nil =>
    intro r
    rw [foldBytes_nil, List.length_nil, Nat.mul_zero, BitVec.shiftLeft_zero]
  | cons b rest ih =>
    intro r
    have step : foldByte (fun _ => 0) ⟨.normal, w⟩ (trunc (container ⟨.normal, w⟩) r) b =
        trunc (container ⟨.normal, w⟩) (r <<< 8) := by
      rw [foldByte_normal, trunc_zero, trunc_shiftLeft_trunc, BitVec.ofNat_eq_ofNat,
        BitVec.zero_xor]
    rw [foldBytes_cons, step, ih, ← BitVec.shiftLeft_add, List.length_cons, Nat.mul_succ,
      Nat.add_comm]

theorem foldBytes_zero_reflected (w : Width) (data : List Byte) :
    ∀ r : Word, foldBytes (fun _ => 0) ⟨.reflected, w⟩ r data = r >>> (8 * data.length) := by
  induction data with
  | nil =>
    intro r
    rw [foldBytes_nil, List.length_nil, Nat.mul_zero, BitVec.ushiftRight_zero]
  | cons b rest ih =>
    intro r
    have step : foldByte (fun _ => 0) ⟨.reflected, w⟩ r b = r >>> 8 := by
      rw [foldByte_reflected, trunc_zero, BitVec.ofNat_eq_ofNat, BitVec.zero_xor]
    rw [foldBytes_cons, step, ih, ← BitVec.shiftRight_add, List.length_cons, Nat.mul_succ,
      Nat.add_comm]

theorem foldV_zero_normal (w : Width) (data : List Byte) (a : Word) :
    foldV (fun _ => 0) ⟨.normal, w⟩ data a =
      finV ⟨.normal, w⟩
        (trunc (container ⟨.normal, w⟩) (initV ⟨.normal, w⟩ a <<< (8 * data.length))) := by
  rw [foldV, initV_normal, foldBytes_zero_normal, trunc_shiftLeft_trunc]

theorem foldV_zero_reflected (w : Width) (data : List Byte) (a : Word) :
    foldV (fun _ => 0) ⟨.reflected, w⟩ data a = initV ⟨.reflected, w⟩ a >>> (8 * data.length) := by
  rw [foldV, finV_reflected, foldBytes_zero_reflected]

/-- Once the bytes fill the width, every bit of it has been shifted out. -/
theorem foldV_zero_eq_zero {v : Variant} {data : List Byte}
    (enough : (policy v).width ≤ 8 * data.length) (a : Word) : foldV (fun _ => 0) v data a = 0 := by
  obtain ⟨d, w⟩ := v
  cases d with
  | normal =>
    rw [foldV_zero_normal, finV_normal (trunc_lt _ _), trunc_trunc_of_le (width_le_container _),
      trunc_shiftLeft_eq_zero enough]
  | reflected =>
    rw [foldV_zero_reflected, initV_reflected]
    exact ushiftRight_eq_zero_of_lt
      ((trunc_lt _ a).trans_le (Nat.pow_le_pow_right Nat.two_pos enough))

/-- Settles O46: each direction's shift by induction over the bytes, and 0 by the width. -/
theorem zeroTableFoldIsAShift : Obligations.ZeroTableFoldIsAShift :=
  fun w data arg =>
    ⟨foldV_zero_normal w data arg, foldV_zero_reflected w data arg,
      fun _ enough => foldV_zero_eq_zero enough arg⟩

/-! ## START and FINISH -/

/-- Of the words with OPC 3, those with a reserved bit or a reserved WCODE match no row (R69, R70). -/
theorem decode_illegal_of_start_reserved {c : Command} (opc : c.cmd.extractLsb' 12 4 = 0x3#4)
    (reserved : c.cmd.extractLsb' 4 8 ≠ 0#8 ∨ 5 ≤ (c.cmd.extractLsb' 0 3).toNat) :
    decode c = .illegal := by
  have bound := c.cmd.isLt
  rw [field_eq] at opc
  rw [Ne, field_eq, field_toNat] at reserved
  rw [decode_illegal_iff]
  omega

/-- The CMD word of a variant's START: it does not depend on the operand (30_encoding.md R66). -/
def startCmd (v : Variant) : BitVec 16 := (encode (startOf v 0)).cmd

theorem encode_startOf (v : Variant) (arg : Word) :
    encode (startOf v arg) = ⟨startCmd v, arg⟩ := by
  obtain ⟨d, w⟩ := v
  cases d <;> cases w <;> rfl

theorem startCmd_high (v : Variant) : (startCmd v).extractLsb' 4 12 = 0x300#12 := by
  obtain ⟨d, w⟩ := v
  cases d <;> cases w <;> decide

/-- CMD[3:0] of a START is the CFG it latches (30_encoding.md R66, 10_state.md R23). -/
theorem startCmd_low (v : Variant) : (startCmd v).setWidth 4 = (cfgWord v).setWidth 4 := by
  obtain ⟨d, w⟩ := v
  cases d <;> cases w <;> decide

theorem initV_trunc (v : Variant) (a : Word) : initV v a = initV v (trunc (container v) a) :=
  initV_eq_of_trunc_eq (trunc_trunc _ a).symm

theorem initV_n24_scratch (a : Word) :
    (initV ⟨.normal, .w24⟩ a).extractLsb' 24 8 = a.extractLsb' 24 8 := by
  rw [initV_normal]
  exact extractLsb'_trunc (by decide) a

theorem initV_r24_scratch (a : Word) :
    (initV ⟨.reflected, .w24⟩ a).extractLsb' 24 8 = 0#8 := by
  rw [initV_reflected]
  exact extractLsb'_eq_zero_of_lt (trunc_lt 24 a) (Nat.le_refl 24) 8

theorem exec_startOf_active {s : State} (v : Variant) (arg : Word) (active : s.active = true) :
    exec (startOf v arg) s = .next (reject .sequence s) := by
  rw [exec_startOf, startFold, if_pos active]

theorem exec_finish_idle {s : State} (idle : s.active = false) :
    exec .finish s = .next (reject .sequence s) := by
  simp [exec, execFinish, finishFold, idle]

/-- Settles O16: START by its three exclusive cases, its words by the encoder. -/
theorem startChecksThenLatches : Obligations.StartChecksThenLatches := by
  refine ⟨fun _ s opc reserved => issue_illegal (decode_illegal_of_start_reserved opc reserved) s,
    initV_trunc, fun arg => ⟨initV_n24_scratch arg, initV_r24_scratch arg⟩, fun v arg s => ?_⟩
  have cmd : (encode (startOf v arg)).cmd = startCmd v := by rw [encode_startOf]
  rw [cmd]
  exact ⟨decode_encode _, startCmd_high v, startCmd_low v,
    fun active => exec_startOf_active v arg active,
    fun idle length => exec_startOf_invalidTable v arg idle length,
    fun idle length => exec_startOf_accepted v arg idle length⟩

/-- `fin_V` as R104 states it: the post-loop mask for N24 alone. -/
theorem finV_eq_ite (v : Variant) (r : Word) :
    finV v r = if v = ⟨.normal, .w24⟩ then r &&& 0xFFFFFF else r := by
  split
  case isTrue n24 => rw [n24]; rfl
  case isFalse other => exact finV_of_ne_n24 other r

/-- Settles O20: the word 0x5000 and its neighbours by the decoder, and FINISH by its phase. -/
theorem finishPublishesTheResult : Obligations.FinishPublishesTheResult := by
  refine ⟨decode_finish_word,
    fun _ opc ne => decode_illegal_of_fieldless_opc (.inr (.inr (.inl rfl))) opc ne,
    fun _ idle => exec_finish_idle idle, ?_, ?_, ?_⟩
  · intro s active
    rw [exec_finish_active active, ← finV_eq_ite]
    rfl
  · intro s t active fits done
    rw [exec_finish_active active] at done
    injection done with done
    rw [← done, accept_result, publish_result]
    exact ⟨finV_lt fits, fun n24 => by rw [n24, finV_n24]; exact trunc_lt 24 _⟩
  · intro v arg s t u idle length started done
    rw [exec_finish_after_startOf idle length started] at done
    injection done with done
    rw [← done]
    rfl

/-! ## The ten variant rules -/

/-- The rule of any variant in the terms of its policy row; `init` and `next` are the formulas of its
rule where they are written without a truncation that does nothing. -/
theorem variantRule_of_policy (v : Variant) {init : Word → Word} {next : Word → Word → Word}
    (hinit : ∀ a, initV v a = init a) (hnext : ∀ e r, stepV v e r = next e r) :
    VariantRule v (startCmd v) (startOf v) init
      (fun r b => b ^^^ r.extractLsb' (policy v).extractLow 8) next (finV v)
      (2 ^ resultBits v - 1) where
  decodes arg := by
    rw [← encode_startOf]
    exact decode_encode _
  starts arg s idle length := by
    rw [← hinit]
    exact exec_startOf_accepted v arg idle length
  feeds b s entry active latched written := by
    subst latched
    rw [← hnext]
    rw [← extractedByte_eq] at written
    exact exec_feed_written active written
  finishes s active latched := by
    subst latched
    exact exec_finish_active active
  range T data arg := Nat.le_sub_one_of_lt (foldV_lt T v data arg)

/-- Settles O17: each rule is its policy row's; at width 64 the container drops nothing. -/
theorem normalVariantsFollowTheirRules : Obligations.NormalVariantsFollowTheirRules := by
  have n8_shift (r e : Word) : trunc 8 e ^^^ trunc 8 (r <<< 8) = trunc 8 e := by
    rw [trunc_shiftLeft_eq_zero (Nat.le_refl 8)]
    exact BitVec.xor_zero
  have n64_step (e r : Word) : stepV ⟨.normal, .w64⟩ e r = e ^^^ (r <<< 8) := by
    rw [stepV, shifted_normal]
    exact congrArg₂ (· ^^^ ·) (trunc_64 e) (trunc_64 _)
  exact ⟨variantRule_of_policy ⟨.normal, .w8⟩ (fun _ => rfl) (fun _ _ => rfl), n8_shift,
    variantRule_of_policy ⟨.normal, .w16⟩ (fun _ => rfl) (fun _ _ => rfl),
    variantRule_of_policy ⟨.normal, .w24⟩ (fun _ => rfl) (fun _ _ => rfl),
    variantRule_of_policy ⟨.normal, .w32⟩ (fun _ => rfl) (fun _ _ => rfl),
    variantRule_of_policy ⟨.normal, .w64⟩ trunc_64 n64_step⟩

/-- A step of R24 takes bits [31:24] from the entry alone: `r >> 8` has none of them (R99). -/
theorem r24_step_scratch (e : Word) {r : Word} (fits : r.toNat < 2 ^ 32) :
    (trunc 32 e ^^^ (r >>> 8)).extractLsb' 24 8 = e.extractLsb' 24 8 := by
  have shifted_fits : (r >>> 8).toNat < 2 ^ 24 := by
    rw [BitVec.toNat_ushiftRight, Nat.shiftRight_eq_div_pow]
    omega
  rw [BitVec.extractLsb'_xor, extractLsb'_trunc (by decide),
    extractLsb'_eq_zero_of_lt shifted_fits (Nat.le_refl 24), BitVec.xor_zero]

/-- Settles O18: each rule is its policy row's; for R24 by the bits its step and its mask leave. -/
theorem reflectedVariantsFollowTheirRules : Obligations.ReflectedVariantsFollowTheirRules := by
  have r64_step (e r : Word) : stepV ⟨.reflected, .w64⟩ e r = e ^^^ (r >>> 8) := by
    rw [stepV, shifted_reflected]
    exact congrArg (· ^^^ (r >>> 8)) (trunc_64 e)
  have exceeds : 0xFFFFFF < (foldV (fun _ => 0xFF000000) ⟨.reflected, .w24⟩ [0x00] 0).toNat := by
    rw [foldV_r24_unbounded_example]
    decide
  exact ⟨variantRule_of_policy ⟨.reflected, .w8⟩ (fun _ => rfl) (fun _ _ => rfl),
    fun _ fits => ushiftRight_eq_zero_of_lt fits,
    variantRule_of_policy ⟨.reflected, .w16⟩ (fun _ => rfl) (fun _ _ => rfl),
    variantRule_of_policy ⟨.reflected, .w24⟩ (fun _ => rfl) (fun _ _ => rfl),
    fun a => initV_reflected .w24 a, fun e _ fits => r24_step_scratch e fits,
    fun _ data arg bounded => foldBytes_r24_le bounded arg data, ⟨_, _, _, exceeds⟩,
    variantRule_of_policy ⟨.reflected, .w32⟩ (fun _ => rfl) (fun _ _ => rfl),
    variantRule_of_policy ⟨.reflected, .w64⟩ trunc_64 r64_step⟩

end Sys2Proof.Machine
end

section
/-! SUPPORT. Family 42_housekeeping.md: the words of CLRERR and what it leaves in STATUS (R121), and
when the command after it sets STICKY again (10_state.md R29). -/

namespace Sys2Proof.Machine

theorem exec_clrerr (s : State) : exec .clrerr s = .next (accept (clearSticky s)) := rfl

theorem eq_of_exec_clrerr {s t : State} (h : exec .clrerr s = .next t) :
    t = accept (clearSticky s) :=
  (Host.Outcome.next.inj h).symm

/-- Bit 0 of STATUS is ACTIVE, so an even STATUS shows IDLE (10_state.md R27). -/
theorem active_eq_false_of_statusWord_even {s : State} (even : (statusWord s).toNat % 2 = 0) :
    s.active = false := by
  cases active : s.active with
  | false => rfl
  | true =>
    simp only [statusWord_toNat, active, if_true] at even
    split at even <;> omega

/-- CLRERR clears every bit of STATUS but ACTIVE, which is clear in IDLE. -/
theorem statusWord_after_clrerr_idle {s : State} (idle : s.active = false) :
    statusWord (accept (clearSticky s)) = 0 := by
  apply BitVec.eq_of_toNat_eq
  rw [statusWord_toNat]
  simp [idle, ErrCode.bits]

/-- A command that ends in a next state is rejected with a code other than 0, or ends with ERR 0 and
does not set STICKY (10_state.md R28, R29). -/
theorem exec_rejects_or_accepts {i : Instr} {s t : State} (h : exec i s = .next t) :
    (∃ code : ErrCode, code.bits ≠ 0 ∧ t = reject code s) ∨
    (t.err = 0 ∧ (t.sticky = true → s.sticky = true)) := by
  rcases exec_cases h with ⟨code, raised, rfl⟩ | ⟨-, rfl⟩ | ⟨-, rfl⟩ | ⟨-, -, rfl⟩ |
    ⟨_, _, -, -, -, rfl⟩ | ⟨_, _, -, -, -, rfl⟩ | ⟨_, _, -, -, rfl⟩ | ⟨_, -, -, rfl⟩
  case inl =>
    refine .inl ⟨code, ?_, rfl⟩
    rcases raised with rfl | rfl | rfl <;> decide
  case inr.inr.inl => exact .inr ⟨rfl, fun set => nomatch set⟩
  all_goals exact .inr ⟨rfl, id⟩

/-- The same of a command word as the host presents it: one that matches no row is rejected too. -/
theorem issue_rejects_or_accepts {c : Command} {s t : State} (h : issue c s = .next t) :
    (∃ code : ErrCode, code.bits ≠ 0 ∧ t = reject code s) ∨
    (t.err = 0 ∧ (t.sticky = true → s.sticky = true)) := by
  cases row : decode c with
  | row i => exact exec_rejects_or_accepts ((issue_row row s).symm.trans h)
  | illegal =>
    rw [issue_illegal row] at h
    injection h with h
    exact .inl ⟨.illegal, by decide, h.symm⟩

/-- From a clear STICKY a command sets it exactly where it is rejected (10_state.md R29). -/
theorem issue_sets_sticky_iff {c : Command} {s t : State} (clear : s.sticky = false)
    (h : issue c s = .next t) : t.sticky = true ↔ t.err ≠ 0 := by
  rcases issue_rejects_or_accepts h with ⟨code, nonzero, rfl⟩ | ⟨ok, keeps⟩
  · exact iff_of_true rfl nonzero
  · refine iff_of_false (fun set => ?_) (not_not_intro ok)
    rw [keeps set] at clear
    cases clear

/-- Settles O13: the word 0x6000 and its neighbours by the decoder; CLRERR is an accepted command that
clears STICKY, from which the next command is rejected or leaves STICKY clear. -/
theorem clrerrClearsStickyAndErr : Obligations.ClrerrClearsStickyAndErr := by
  refine ⟨decode_clrerr_word,
    fun _ opc ne => decode_illegal_of_fieldless_opc (.inr (.inr (.inr rfl))) opc ne,
    exec_clrerr, fun s t shown cleared => ?_, fun c s t u cleared issued => ?_⟩
  · rw [eq_of_exec_clrerr cleared]
    exact statusWord_after_clrerr_idle (active_eq_false_of_statusWord_even (by rw [shown]; rfl))
  · have clear : t.sticky = false := by
      rw [eq_of_exec_clrerr cleared, accept_sticky, clearSticky_sticky]
    exact issue_sets_sticky_iff clear issued

end Sys2Proof.Machine
end

section
/-! SUPPORT. Family 60_exceptions.md: the outcome every command reports in each phase (R135, R136), and
what a rejection leaves unchanged (R131 to R133). -/

namespace Sys2Proof.Machine

/-! ## The code each operation reports -/

theorem whileIdle_err (effect : State → State) (s : State) :
    (whileIdle effect s).err = if s.active then 0x5 else 0x0 := by
  rcases whileIdle_cases effect s with ⟨active, ended⟩ | ⟨idle, ended⟩
  · simp [ended, active, ErrCode.bits]
  · simp [ended, idle, ErrCode.bits]

/-- The phase is checked before the table length (R135). -/
theorem startFold_err (v : Variant) (init : Word) (s : State) :
    (startFold v init s).err =
      if s.active then 0x4 else if s.tbllen ≠ Config.requiredLength then 0x1 else 0x0 := by
  rcases startFold_cases v init s with ⟨active, ended⟩ | ⟨idle, wrong, ended⟩ | ⟨idle, right, ended⟩
  · simp [ended, active, ErrCode.bits]
  · simp [ended, idle, wrong, ErrCode.bits]
  · simp [ended, idle, right, ErrCode.bits]

theorem finishFold_err (s : State) : (finishFold s).err = if s.active then 0x0 else 0x4 := by
  rcases finishFold_cases s with ⟨idle, ended⟩ | ⟨active, ended⟩
  · simp [ended, idle, ErrCode.bits]
  · simp [ended, active, ErrCode.bits]

theorem exec_feed_idle {s : State} (b : Byte) (idle : s.active = false) :
    exec (.feed b) s = .next (reject .sequence s) := by
  simp [exec, execFeed, feedByte, idle]

/-- FEED alone can fault, and not where the entry its index names has been written (20_memory.md R43). -/
theorem exec_feed_completes {s : State} (b : Byte) (written : TableWritten s) :
    ∃ t, exec (.feed b) s = .next t ∧ t.err = if s.active then 0x0 else 0x4 := by
  cases active : s.active with
  | false => exact ⟨_, exec_feed_idle b active, rfl⟩
  | true =>
    obtain ⟨entry, read⟩ := Option.isSome_iff_exists.mp (written (tableIndex s.cfg s.crc b))
    exact ⟨_, exec_feed_written active read, rfl⟩

/-! ## The obligations -/

/-- Settles O22: by the command's shape, with the code its operation reports; the ten STARTs are one
operation. -/
theorem everyCommandHasItsOutcome : Obligations.EveryCommandHasItsOutcome := by
  intro s c written
  cases row : decode c with
  | illegal => exact ⟨_, issue_illegal row s, rfl⟩
  | row i =>
    rw [issue_row row]
    rcases instr_shapes i with
      rfl | rfl | rfl | ⟨b, rfl⟩ | ⟨⟨d, w⟩, init, rfl⟩ | ⟨idx, value, rfl⟩ | ⟨count, rfl⟩
    · exact ⟨accept s, rfl, rfl⟩
    · exact ⟨accept (clearSticky s), rfl, rfl⟩
    · exact ⟨finishFold s, rfl, finishFold_err s⟩
    · exact exec_feed_completes b written
    · refine ⟨startFold ⟨d, w⟩ init s, exec_startOf ⟨d, w⟩ init s, ?_⟩
      cases d <;> cases w <;> exact startFold_err _ init s
    · exact ⟨_, rfl, whileIdle_err (writeEntry idx value) s⟩
    · exact ⟨_, rfl, whileIdle_err (setLength count) s⟩

/-- Settles O23: a command that is not rejected ends with ERR 0, so this one was, and `reject` on the
state without the command is the state described. -/
theorem rejectionIsPrecise : Obligations.RejectionIsPrecise := by
  intro s t c rest taken done failed
  rw [step_cons taken] at done
  rcases issue_rejects_or_accepts done with ⟨code, -, rfl⟩ | ⟨ok, -⟩
  · rfl
  · exact absurd ok failed

/-- Settles O24: each command of the wrong phase is rejected by its phase check. -/
theorem wrongPhaseIsRejected : Obligations.WrongPhaseIsRejected := fun _ =>
  ⟨fun active =>
    ⟨fun v arg => exec_startOf_active v arg active,
      fun idx value => exec_twr_locked idx value active,
      fun count => exec_tlen_locked count active⟩,
    fun idle => ⟨fun b => exec_feed_idle b idle, exec_finish_idle idle⟩⟩

end Sys2Proof.Machine
end

section
/-! SUPPORT. Family 70_reset_and_hazards.md: what ends a fold and what begins one (R151, 10_state.md
R24). -/

namespace Sys2Proof.Machine

/-- Of the commands only an accepted FINISH clears ACTIVE and only an accepted START sets it. -/
theorem exec_keeps_active_or_ends_or_starts {i : Instr} {s t : State} (h : exec i s = .next t) :
    t.active = s.active ∨
    (t.active = false ∧ i = .finish ∧ t.err = 0x0) ∨
    (s.active = false ∧ s.tbllen = 256 ∧ ∃ v arg, i = startOf v arg ∧ t.err = 0x0) := by
  rcases exec_cases h with ⟨_, -, rfl⟩ | ⟨-, rfl⟩ | ⟨-, rfl⟩ | ⟨finish, -, rfl⟩ |
    ⟨_, _, -, -, -, rfl⟩ | ⟨v, arg, start, idle, length, rfl⟩ | ⟨_, _, -, -, rfl⟩ | ⟨_, -, -, rfl⟩
  case inr.inr.inr.inl => exact .inr (.inl ⟨rfl, finish, rfl⟩)
  case inr.inr.inr.inr.inr.inl => exact .inr (.inr ⟨idle, length, v, arg, start, rfl⟩)
  all_goals exact .inl rfl

/-- The same of a step: beside the commands only a reset writes ACTIVE, and it clears it. -/
theorem step_keeps_active_or_ends_or_starts {s t : State} (h : step s = .next t) :
    t.active = s.active ∨
    (t.active = false ∧ ∃ rest, s.pending = .reset :: rest ∨
      ∃ c, s.pending = .command c :: rest ∧ decode c = .row .finish ∧ t.err = 0x0) ∨
    (s.active = false ∧ s.tbllen = 256 ∧ ∃ c rest v arg, s.pending = .command c :: rest ∧
      decode c = .row (startOf v arg) ∧ t.err = 0x0) := by
  rcases step_cases h with ⟨-, rfl⟩ | ⟨_, _, -, rfl⟩ | ⟨rest, taken, rfl⟩ | ⟨_, _, -, -, rfl⟩ |
    ⟨c, rest, i, taken, row, done⟩
  case inr.inr.inl => exact .inr (.inl ⟨rfl, rest, .inl taken⟩)
  case inr.inr.inr.inr =>
    rcases exec_keeps_active_or_ends_or_starts done with
      kept | ⟨ended, rfl, ok⟩ | ⟨idle, length, v, arg, rfl, ok⟩
    · exact .inl kept
    · exact .inr (.inl ⟨ended, rest, .inr ⟨c, taken, row, ok⟩⟩)
    · exact .inr (.inr ⟨idle, length, c, rest, v, arg, taken, row, ok⟩)
  all_goals exact .inl rfl

/-- Settles O28: a step that changes ACTIVE is one of the two kinds that write it, and the direction
of the change tells which. -/
theorem onlyFinishOrResetEndsAFold : Obligations.OnlyFinishOrResetEndsAFold := by
  intro s t done
  rcases step_keeps_active_or_ends_or_starts done with
    kept | ⟨cleared, ended⟩ | ⟨idle, length, started⟩
  · exact ⟨fun active idle => by simp [kept, active] at idle,
      fun idle active => by simp [kept, idle] at active⟩
  · exact ⟨fun _ _ => ended, fun _ active => by simp [cleared] at active⟩
  · exact ⟨fun active _ => by simp [idle] at active, fun _ _ => ⟨length, started⟩⟩

end Sys2Proof.Machine
end

section
/-! SUPPORT. What every step and every run keeps: the invariant (10_state.md, 20_memory.md), the order
of the host's actions (10_state.md R33), and STICKY (R29). -/

namespace Sys2Proof.Machine

/-! ## The host's two fields -/

/-- The block as it stands in `s`, beside a host that has the actions `p` to come and has read `l`. -/
def withHost (p : List HostAction) (l : List Word) (s : State) : State :=
  { s with pending := p, reads := l }

/-! ## The invariant -/

/-- The invariant speaks of the block alone. -/
theorem inv_withHost {s : State} (inv : Inv s) (p : List HostAction) (l : List Word) :
    Inv (withHost p l s) where
  table_wf := inv.table_wf
  crc_fits := inv.crc_fits
  length_valid := inv.length_valid
  result_fits := inv.result_fits
  err_raised := inv.err_raised
  err_sticky := inv.err_sticky

theorem inv_reject {s : State} {code : ErrCode} (inv : Inv s)
    (raised : raisedByCore code.bits = true) : Inv (reject code s) where
  table_wf := inv.table_wf
  crc_fits := inv.crc_fits
  length_valid := inv.length_valid
  result_fits := inv.result_fits
  err_raised := raised
  err_sticky := fun _ => rfl

/-- After an accepted command ERR is 0, so only the rest of the state has to be looked at. -/
theorem inv_accept {s : State} (table_wf : s.table.wf)
    (crc_fits : s.crc.toNat < 2 ^ container s.cfg)
    (length_valid : s.active = true → s.tbllen = Config.requiredLength)
    (result_fits : s.active = false → s.result.toNat < 2 ^ resultBits s.cfg) :
    Inv (accept s) where
  table_wf := table_wf
  crc_fits := crc_fits
  length_valid := length_valid
  result_fits := result_fits
  err_raised := show raisedByCore ErrCode.ok.bits = true by decide
  err_sticky := fun failed => absurd rfl failed

/-- Settles O31: at reset every register is 0 and no entry is listed. -/
theorem resetMeetsTheInvariant : Obligations.ResetMeetsTheInvariant where
  table_wf := memory_wf_nil
  crc_fits := by decide
  length_valid := fun active => nomatch active
  result_fits := by decide
  err_raised := by decide
  err_sticky := fun failed => absurd rfl failed

theorem exec_keeps_inv {i : Instr} {s t : State} (inv : Inv s) (done : exec i s = .next t) :
    Inv t := by
  rcases exec_cases done with ⟨code, raised, rfl⟩ | ⟨-, rfl⟩ | ⟨-, rfl⟩ | ⟨-, -, rfl⟩ |
    ⟨b, entry, -, active, -, rfl⟩ | ⟨v, init, -, -, length, rfl⟩ | ⟨idx, value, -, -, rfl⟩ |
    ⟨count, -, idle, rfl⟩
  · refine inv_reject inv ?_
    rcases raised with rfl | rfl | rfl <;> decide
  · exact inv_accept inv.table_wf inv.crc_fits inv.length_valid inv.result_fits
  · exact inv_accept inv.table_wf inv.crc_fits inv.length_valid inv.result_fits
  · exact inv_accept inv.table_wf inv.crc_fits (fun active => nomatch active)
      (fun _ => finV_lt_resultBits inv.crc_fits)
  · exact inv_accept inv.table_wf (stepV_lt entry inv.crc_fits) inv.length_valid inv.result_fits
  · exact inv_accept inv.table_wf (initV_lt v init) (fun _ => length) (fun idle => nomatch idle)
  · exact inv_accept (memory_wf_write value inv.table_wf idx.isLt) inv.crc_fits inv.length_valid
      inv.result_fits
  · exact inv_accept inv.table_wf inv.crc_fits (fun active => by simp [idle] at active)
      inv.result_fits

/-- Settles O32: a read and the taking of an action touch the host's fields alone, a reset gives the
reset state, and the commands by their own lemma. -/
theorem everyStepKeepsTheInvariant : Obligations.EveryStepKeepsTheInvariant := by
  intro s t inv done
  rcases step_cases done with ⟨-, rfl⟩ | ⟨addr, rest, -, rfl⟩ | ⟨rest, -, rfl⟩ |
    ⟨_, rest, -, -, rfl⟩ | ⟨_, rest, i, -, -, executed⟩
  · exact inv
  · exact inv_withHost inv rest _
  · exact inv_withHost resetMeetsTheInvariant rest s.reads
  · exact inv_reject (inv_withHost inv rest s.reads) (by decide)
  · exact exec_keeps_inv (inv_withHost inv rest s.reads) executed

/-! ## Each action is taken once, in order -/

/-- No command touches what the host has still to do. -/
theorem exec_pending {i : Instr} {s t : State} (done : exec i s = .next t) :
    t.pending = s.pending := by
  rcases exec_cases done with ⟨_, -, rfl⟩ | ⟨-, rfl⟩ | ⟨-, rfl⟩ | ⟨-, -, rfl⟩ |
    ⟨_, _, -, -, -, rfl⟩ | ⟨_, _, -, -, -, rfl⟩ | ⟨_, _, -, -, rfl⟩ | ⟨_, -, -, rfl⟩
  all_goals rfl

/-- A step takes the first action, if there is one, and leaves the rest in order. -/
theorem step_pending {s t : State} (done : step s = .next t) : t.pending = s.pending.tail := by
  rcases step_cases done with ⟨none_left, rfl⟩ | ⟨_, _, taken, rfl⟩ | ⟨_, taken, rfl⟩ |
    ⟨_, _, taken, -, rfl⟩ | ⟨_, _, _, taken, -, executed⟩
  case inl => rw [none_left, List.tail_nil]
  case inr.inr.inr.inr => rw [exec_pending executed, taken, List.tail_cons]
  all_goals rw [taken]; rfl

theorem run_pending (n : Nat) :
    ∀ {s t : State}, Host.Core.run core n s = .next t → t.pending = s.pending.drop n := by
  induction n with
  | zero =>
    intro s t done
    rw [← Host.Outcome.next.inj done, List.drop_zero]
  | succ n ih =>
    intro s t done
    obtain ⟨u, first, later⟩ := run_succ_inv done
    rw [ih later, step_pending first, List.drop_tail]

/-- Settles O7: a step leaves the tail of what is pending, and an idle step is no step at all. -/
theorem actionsAreConsumedInOrder : Obligations.ActionsAreConsumedInOrder := by
  refine ⟨fun s t a rest taken done => ?_, fun _ none_left => step_idle none_left⟩
  rw [step_pending done, taken, List.tail_cons]

/-- Settles O6: by what a step does with the action it takes. -/
theorem stepRunsTheDecodedCommand : Obligations.StepRunsTheDecodedCommand :=
  fun _ _ _ taken =>
    ⟨fun _ row => (step_cons taken).trans (issue_row row _),
      fun illegal => (step_cons taken).trans (issue_illegal illegal _)⟩

/-- Settles O11: the step is the reset of the block. -/
theorem resetAbandonsEverything : Obligations.ResetAbandonsEverything :=
  fun s rest taken =>
    ⟨resetBlock { s with pending := rest }, step_cons taken, rfl, rfl, rfl, rfl, fun _ => rfl, rfl,
      rfl⟩

/-! ## STICKY -/

/-- Every command but CLRERR keeps STICKY, or sets it where it is rejected. -/
theorem exec_sticky_iff {i : Instr} {s t : State} (other : i ≠ .clrerr)
    (done : exec i s = .next t) : t.sticky = true ↔ s.sticky = true ∨ t.err ≠ 0x0 := by
  rcases exec_cases done with ⟨code, raised, rfl⟩ | ⟨-, rfl⟩ | ⟨clrerr, -⟩ | ⟨-, -, rfl⟩ |
    ⟨_, _, -, -, -, rfl⟩ | ⟨_, _, -, -, -, rfl⟩ | ⟨_, _, -, -, rfl⟩ | ⟨_, -, -, rfl⟩
  case inl =>
    refine iff_of_true rfl (.inr (show code.bits ≠ 0x0 from ?_))
    rcases raised with rfl | rfl | rfl <;> decide
  case inr.inr.inl => exact absurd clrerr other
  all_goals exact (or_iff_left (not_not_intro rfl)).symm

/-- The same of a command word, where it does not decode to CLRERR. -/
theorem issue_sticky_iff {c : Command} {s t : State} (other : decode c ≠ .row .clrerr)
    (done : issue c s = .next t) : t.sticky = true ↔ s.sticky = true ∨ t.err ≠ 0x0 := by
  cases row : decode c with
  | row i =>
    rw [issue_row row] at done
    exact exec_sticky_iff (fun clrerr => other (row.trans (congrArg Decoded.row clrerr))) done
  | illegal =>
    rw [issue_illegal row] at done
    rw [← Host.Outcome.next.inj done]
    exact iff_of_true rfl (.inr (show ErrCode.illegal.bits ≠ 0x0 by decide))

theorem perform_clears_sticky {a : HostAction} {s t : State} (clears : clearsSticky a = true)
    (done : perform a s = .next t) : t.sticky = false := by
  cases a with
  | command c =>
    have issued : issue c s = .next t := done
    rw [issue_row (beq_iff_eq.mp clears)] at issued
    rw [eq_of_exec_clrerr issued, accept_sticky, clearSticky_sticky]
  | read addr => cases clears
  | reset =>
    rw [← Host.Outcome.next.inj done]
    rfl

theorem perform_sticky_iff {a : HostAction} {s t : State} (keeps : clearsSticky a = false)
    (done : perform a s = .next t) :
    t.sticky = true ↔ s.sticky = true ∨ ∃ c, a = .command c ∧ t.err ≠ 0x0 := by
  cases a with
  | command c => simpa using issue_sticky_iff (beq_eq_false_iff_ne.mp keeps) done
  | read addr =>
    rw [← Host.Outcome.next.inj done]
    simp
  | reset => cases keeps

/-- Settles O25: by the action the step takes. -/
theorem stickyChangesOnlyAsStated : Obligations.StickyChangesOnlyAsStated := by
  intro s t a rest taken done
  rw [step_cons taken] at done
  exact ⟨fun clears => perform_clears_sticky clears done,
    fun keeps => perform_sticky_iff (s := { s with pending := rest }) keeps done⟩

/-- Where no action taken clears it, STICKY stays 1 to the end of a run. -/
theorem run_keeps_sticky (n : Nat) :
    ∀ {s t : State}, (∀ a ∈ s.pending.take n, clearsSticky a = false) →
      Host.Core.run core n s = .next t → s.sticky = true → t.sticky = true := by
  induction n with
  | zero =>
    intro s t _ done set
    rwa [← Host.Outcome.next.inj done]
  | succ n ih =>
    intro s t keep done set
    obtain ⟨u, first, later⟩ := run_succ_inv done
    cases taken : s.pending with
    | nil =>
      rw [step_idle taken] at first
      cases first
      exact ih (by simp [taken]) later set
    | cons a rest =>
      rw [taken, List.take_succ_cons, List.forall_mem_cons] at keep
      obtain ⟨keeps, keep_rest⟩ := keep
      have left : u.pending = rest := by rw [step_pending first, taken, List.tail_cons]
      rw [step_cons taken] at first
      exact ih (by rwa [left]) later ((perform_sticky_iff keeps first).mpr (.inl set))

/-- A run that ends in a state ends in one after each of its steps, from which the rest goes on. -/
theorem run_split {m n : Nat} {s t : State} (done : Host.Core.run core (m + n) s = .next t) :
    ∃ u, Host.Core.run core m s = .next u ∧ Host.Core.run core n u = .next t := by
  induction m generalizing s with
  | zero => exact ⟨s, rfl, by rwa [Nat.zero_add] at done⟩
  | succ m ih =>
    rw [Nat.succ_add] at done
    obtain ⟨v, first, later⟩ := run_succ_inv done
    obtain ⟨u, here, there⟩ := ih later
    exact ⟨u, (run_next first m).trans here, there⟩

/-- Settles O26: a STICKY set on the way would still be set at the end, and by the invariant a state
with STICKY 0 has ERR 0. -/
theorem clearStickyMeansNoRejection : Obligations.ClearStickyMeansNoRejection := by
  intro n s t inv keep done clear k le
  obtain ⟨m, rfl⟩ := Nat.exists_eq_add_of_le le
  obtain ⟨u, here, there⟩ := run_split done
  refine ⟨u, here, ?_⟩
  have keep_rest : ∀ a ∈ u.pending.take m, clearsSticky a = false := by
    intro a mem
    rw [run_pending k here, List.take_drop] at mem
    exact keep a (List.mem_of_mem_drop mem)
  have clear_here : u.sticky ≠ true := fun set => by
    simp [run_keeps_sticky m keep_rest there set] at clear
  have inv_here : Inv u := run_induct everyStepKeepsTheInvariant k inv here
  exact Classical.not_not.mp (mt inv_here.err_sticky clear_here)

end Sys2Proof.Machine
end

section
/-! SUPPORT. What a command and a step do to each piece of state, where the machine faults (20_memory.md
R43), and what that gives for runs: over a written table, without the reads (10_state.md R31), and inside
a fold (41_fold.md R115, R116). -/

namespace Sys2Proof.Machine

/-! ## The writers of each piece of state -/

/-- Settles O27: by what each accepted command does; the rest of its state is the one before. -/
theorem eachStateHasItsWriters : Obligations.EachStateHasItsWriters := by
  intro s t c rest taken done
  rw [step_cons taken] at done
  cases row : decode c with
  | illegal =>
    have rejected : issue c { s with pending := rest } = .next t := done
    rw [issue_illegal row] at rejected
    cases rejected
    exact ⟨absurd rfl, absurd rfl, absurd rfl, absurd rfl, absurd rfl, rfl⟩
  | row i =>
    have executed := (issue_row row _).symm.trans done
    rcases exec_cases executed with ⟨_, -, rfl⟩ | ⟨-, rfl⟩ | ⟨-, rfl⟩ | ⟨rfl, -, rfl⟩ |
      ⟨b, _, rfl, -, -, rfl⟩ | ⟨v, arg, rfl, -, -, rfl⟩ | ⟨idx, value, rfl, -, rfl⟩ |
      ⟨count, rfl, -, rfl⟩
    · exact ⟨absurd rfl, absurd rfl, absurd rfl, absurd rfl, absurd rfl, rfl⟩
    · exact ⟨absurd rfl, absurd rfl, absurd rfl, absurd rfl, absurd rfl, rfl⟩
    · exact ⟨absurd rfl, absurd rfl, absurd rfl, absurd rfl, absurd rfl, rfl⟩
    · exact ⟨absurd rfl, absurd rfl, fun _ => ⟨rfl, rfl⟩, absurd rfl, absurd rfl, rfl⟩
    · exact ⟨fun _ => ⟨rfl, .inr ⟨b, rfl⟩⟩, absurd rfl, absurd rfl, absurd rfl, absurd rfl, rfl⟩
    · exact ⟨fun _ => ⟨rfl, .inl ⟨v, arg, rfl⟩⟩, fun _ => ⟨rfl, v, arg, rfl, rfl⟩, absurd rfl,
        absurd rfl, absurd rfl, rfl⟩
    · exact ⟨absurd rfl, absurd rfl, absurd rfl, absurd rfl,
        fun _ => ⟨rfl, idx, value, rfl, fun a => memory_read_write s.table idx.toNat a value⟩, rfl⟩
    · exact ⟨absurd rfl, absurd rfl, absurd rfl, fun _ => ⟨rfl, rfl⟩, absurd rfl, rfl⟩

/-! ## FEED, and where the machine faults -/

/-- Some byte reaches each entry, whatever the register holds. -/
theorem tableIndex_surjective (v : Variant) (r : Word) (k : Byte) : ∃ b, tableIndex v r b = k :=
  ⟨k ^^^ extractedByte v r, by
    rw [tableIndex, BitVec.xor_assoc, BitVec.xor_self, BitVec.xor_zero]⟩

/-- Settles O19: the words of FEED by the decoder, and FEED by its phase and the entry it reads. -/
theorem feedFoldsOneByte : Obligations.FeedFoldsOneByte :=
  ⟨decode_feed_word, fun _ _ set => decode_illegal_of_high_bits set,
    fun b _ idle => exec_feed_idle b idle, fun _ _ _ active read => exec_feed_written active read,
    fun _ _ active unwritten => exec_feed_unwritten active unwritten, tableIndex_surjective⟩

/-- Every command ends in a next state, but a FEED of a fold whose entry is not written. -/
theorem exec_completes_or_faults (i : Instr) (s : State) :
    (∃ t, exec i s = .next t) ∨
    ∃ b, i = .feed b ∧ s.active = true ∧
      s.table.read (tableIndex s.cfg s.crc b).toNat = none ∧
      exec i s = .fault (.unwrittenEntry (tableIndex s.cfg s.crc b)) := by
  rcases instr_shapes i with rfl | rfl | rfl | ⟨b, rfl⟩ | ⟨v, arg, rfl⟩ | ⟨idx, value, rfl⟩ |
    ⟨count, rfl⟩
  case inr.inr.inr.inl =>
    rcases feedByte_cases b s with ⟨-, ended⟩ | ⟨_, -, -, ended⟩ | ⟨active, unwritten, ended⟩
    · exact .inl ⟨_, ended⟩
    · exact .inl ⟨_, ended⟩
    · exact .inr ⟨b, rfl, active, unwritten, ended⟩
  case inr.inr.inr.inr.inl => exact .inl ⟨_, exec_startOf v arg s⟩
  all_goals exact .inl ⟨_, rfl⟩

/-- The same of a step: of the host's actions only a command can stop the machine. -/
theorem step_completes_or_faults (s : State) :
    (∃ t, step s = .next t) ∨
    ∃ c rest b, s.pending = .command c :: rest ∧ decode c = .row (.feed b) ∧ s.active = true ∧
      s.table.read (tableIndex s.cfg s.crc b).toNat = none ∧
      step s = .fault (.unwrittenEntry (tableIndex s.cfg s.crc b)) := by
  cases taken : s.pending with
  | nil => exact .inl ⟨s, step_idle taken⟩
  | cons a rest =>
    rw [step_cons taken]
    cases a with
    | read addr => exact .inl ⟨_, rfl⟩
    | reset => exact .inl ⟨_, rfl⟩
    | command c =>
      cases row : decode c with
      | illegal => exact .inl ⟨_, issue_illegal row _⟩
      | row i =>
        rcases exec_completes_or_faults i { s with pending := rest } with
          ⟨t, done⟩ | ⟨b, rfl, active, unwritten, fault⟩
        · exact .inl ⟨t, (issue_row row _).trans done⟩
        · exact .inr ⟨c, rest, b, rfl, row, active, unwritten, (issue_row row _).trans fault⟩

/-- Settles O29: a step ends in a next state or in the one fault, never in a refusal. -/
theorem faultsExactlyOnUnwrittenReads : Obligations.FaultsExactlyOnUnwrittenReads := by
  refine fun s => ⟨fun f => ⟨fun faulted => ?_, ?_⟩, fun r refused => ?_⟩
  · rcases step_completes_or_faults s with
      ⟨t, done⟩ | ⟨c, rest, b, taken, row, active, unwritten, fault⟩
    · cases done.symm.trans faulted
    · exact ⟨c, rest, b, taken, row, active, unwritten,
        Host.Outcome.fault.inj (faulted.symm.trans fault)⟩
  · rintro ⟨c, rest, b, taken, row, active, unwritten, rfl⟩
    rw [step_cons taken]
    exact (issue_row row _).trans (exec_feed_unwritten active unwritten)
  · rcases step_completes_or_faults s with ⟨t, done⟩ | ⟨_, _, _, -, -, -, -, fault⟩
    · cases done.symm.trans refused
    · cases fault.symm.trans refused

/-! ## Runs over a written table -/

theorem step_completes_of_written {s : State} (written : TableWritten s) :
    ∃ t, step s = .next t := by
  rcases step_completes_or_faults s with done | ⟨_, _, b, -, -, -, unwritten, -⟩
  · exact done
  · have isSome := written (tableIndex s.cfg s.crc b)
    rw [unwritten] at isSome
    cases isSome

/-- A TWR adds an entry, and no other command touches the table RAM. -/
theorem exec_keeps_written {i : Instr} {s t : State} (written : TableWritten s)
    (done : exec i s = .next t) : TableWritten t := by
  rcases exec_cases done with ⟨_, -, rfl⟩ | ⟨-, rfl⟩ | ⟨-, rfl⟩ | ⟨-, -, rfl⟩ |
    ⟨_, _, -, -, -, rfl⟩ | ⟨_, _, -, -, -, rfl⟩ | ⟨idx, value, -, -, rfl⟩ | ⟨_, -, -, rfl⟩
  case inr.inr.inr.inr.inr.inr.inl =>
    intro j
    rw [accept_table, writeEntry_table, memory_read_write]
    split
    · rfl
    · exact written j
  all_goals exact written

/-- Of the host's actions only a reset forgets a written entry. -/
theorem step_keeps_written {s t : State} (written : TableWritten s)
    (no_reset : ∀ a ∈ s.pending, a ≠ .reset) (done : step s = .next t) : TableWritten t := by
  rcases step_cases done with ⟨-, rfl⟩ | ⟨_, _, -, rfl⟩ | ⟨_, taken, -⟩ | ⟨_, _, -, -, rfl⟩ |
    ⟨_, rest, _, -, -, executed⟩
  case inr.inr.inl => exact absurd rfl (no_reset .reset (by simp [taken]))
  case inr.inr.inr.inr =>
    exact exec_keeps_written (s := { s with pending := rest }) written executed
  all_goals exact written

/-- Settles O30: by induction over the steps, each of which ends in a state with the table written. -/
theorem loadedTableNeverFaults : Obligations.LoadedTableNeverFaults := by
  intro n
  induction n with
  | zero => exact fun s written _ => ⟨s, rfl, written⟩
  | succ n ih =>
    intro s written no_reset
    obtain ⟨u, first⟩ := step_completes_of_written written
    rw [run_next first]
    refine ih u (step_keeps_written written no_reset first) fun a mem => no_reset a ?_
    rw [step_pending first] at mem
    exact List.mem_of_mem_tail mem

/-! ## The block is blind to the host's fields -/

theorem whileIdle_withHost (effect : State → State) (p : List HostAction) (l : List Word)
    (blind : ∀ s, effect (withHost p l s) = withHost p l (effect s)) (s : State) :
    whileIdle effect (withHost p l s) = withHost p l (whileIdle effect s) := by
  simp only [whileIdle, apply_ite (withHost p l), blind]
  rfl

theorem startFold_withHost (v : Variant) (arg : Word) (p : List HostAction) (l : List Word)
    (s : State) : startFold v arg (withHost p l s) = withHost p l (startFold v arg s) := by
  simp only [startFold, apply_ite (withHost p l)]
  rfl

theorem finishFold_withHost (p : List HostAction) (l : List Word) (s : State) :
    finishFold (withHost p l s) = withHost p l (finishFold s) := by
  simp only [finishFold, apply_ite (withHost p l)]
  rfl

theorem exec_feed_withHost {b : Byte} {s t : State} (p : List HostAction) (l : List Word)
    (done : exec (.feed b) s = .next t) :
    exec (.feed b) (withHost p l s) = .next (withHost p l t) := by
  have fed : feedByte b s = .next t := done
  rcases feedByte_cases b s with ⟨idle, ended⟩ | ⟨entry, active, read, ended⟩ | ⟨-, -, ended⟩
  · cases ended.symm.trans fed
    exact exec_feed_idle b idle
  · cases ended.symm.trans fed
    exact exec_feed_written (s := withHost p l s) active read
  · cases ended.symm.trans fed

theorem exec_withHost {i : Instr} {s t : State} (p : List HostAction) (l : List Word)
    (done : exec i s = .next t) : exec i (withHost p l s) = .next (withHost p l t) := by
  rcases instr_shapes i with rfl | rfl | rfl | ⟨b, rfl⟩ | ⟨v, arg, rfl⟩ | ⟨idx, value, rfl⟩ |
    ⟨count, rfl⟩
  case inr.inr.inr.inl => exact exec_feed_withHost p l done
  case inr.inr.inr.inr.inl =>
    rw [exec_startOf] at done ⊢
    rw [← Host.Outcome.next.inj done, startFold_withHost]
  all_goals rw [← Host.Outcome.next.inj done]
  · rfl
  · rfl
  · exact congrArg Host.Outcome.next (finishFold_withHost p l s)
  · exact congrArg Host.Outcome.next (whileIdle_withHost (writeEntry idx value) p l (fun _ => rfl) s)
  · exact congrArg Host.Outcome.next (whileIdle_withHost (setLength count) p l (fun _ => rfl) s)

/-- Whatever an action other than a read does, it does the same beside any other host fields. -/
theorem perform_withHost {a : HostAction} {s t : State} (p : List HostAction) (l : List Word)
    (no_read : isRead a = false) (done : perform a s = .next t) :
    perform a (withHost p l s) = .next (withHost p l t) := by
  cases a with
  | read addr => cases no_read
  | reset =>
    rw [← Host.Outcome.next.inj done]
    rfl
  | command c =>
    have issued : issue c s = .next t := done
    change issue c _ = _
    cases row : decode c with
    | illegal =>
      rw [issue_illegal row] at issued ⊢
      rw [← Host.Outcome.next.inj issued]
      rfl
    | row i =>
      rw [issue_row row] at issued ⊢
      exact exec_withHost p l issued

/-- The actions without the reads, from the same block beside any reads already taken, end in the same
block. -/
theorem run_without_reads (acts : List HostAction) (l : List Word) :
    ∀ {s t : State}, s.pending = acts → Host.Core.run core acts.length s = .next t →
      Host.Core.run core (acts.filter (fun a => !isRead a)).length
          (withHost (acts.filter (fun a => !isRead a)) l s) =
        .next (withHost [] l t) := by
  induction acts with
  | nil =>
    intro s t _ done
    rw [← Host.Outcome.next.inj done]
    rfl
  | cons a rest ih =>
    intro s t taken done
    obtain ⟨u, first, later⟩ := run_succ_inv done
    have left : u.pending = rest := by rw [step_pending first, taken, List.tail_cons]
    have shorter := ih left later
    rw [step_cons taken] at first
    cases read : isRead a with
    | true =>
      rw [List.filter_cons_of_neg (by simp [read])]
      cases a with
      | read addr => rwa [← Host.Outcome.next.inj first] at shorter
      | command c => cases read
      | reset => cases read
    | false =>
      rw [List.filter_cons_of_pos (by simp [read]), List.length_cons]
      exact (run_next ((step_cons rfl).trans (perform_withHost _ l read first)) _).trans shorter

/-- Settles O9: the run without the reads ends in the same block, with nothing pending in both. -/
theorem readsNeverChangeARun : Obligations.ReadsNeverChangeARun := by
  intro acts s t done
  have all_taken : t.pending = [] := by
    rw [run_pending _ done, List.drop_length]
  refine (run_without_reads acts s.reads rfl done).trans (congrArg Host.Outcome.next ?_)
  rw [withHost, ← all_taken]

/-! ## Inside a fold -/

/-- What a fold in progress freezes is in `t` as in `s` (20_memory.md R54, 41_fold.md R115). -/
structure KeepsFold (s t : State) : Prop where
  active : t.active = s.active
  cfg : t.cfg = s.cfg
  result : t.result = s.result
  tbllen : t.tbllen = s.tbllen
  table : t.table = s.table

theorem KeepsFold.trans {s t u : State} (first : KeepsFold s t) (later : KeepsFold t u) :
    KeepsFold s u where
  active := later.active.trans first.active
  cfg := later.cfg.trans first.cfg
  result := later.result.trans first.result
  tbllen := later.tbllen.trans first.tbllen
  table := later.table.trans first.table

theorem fedBytes_of_feed {c : Command} {b : Byte} (row : decode c = .row (.feed b)) :
    fedBytes [.command c] = [b] := by
  simp [fedBytes, row]

theorem fedBytes_of_not_feed {c : Command} (other : ∀ b, decode c ≠ .row (.feed b)) :
    fedBytes [.command c] = [] := by
  unfold fedBytes
  split
  · exact absurd ‹_› (other _)
  · rfl

theorem fedBytes_cons (a : HostAction) (rest : List HostAction) :
    fedBytes (a :: rest) = fedBytes [a] ++ fedBytes rest := by
  cases a with
  | command c =>
    simp only [fedBytes]
    split <;> rfl
  | read addr => rfl
  | reset => rfl

/-- One command in a fold over a written table, other than FINISH: FEED folds its byte, and every other
command is accepted with no effect on the fold or rejected (R115, R116). -/
theorem exec_in_fold {T : Byte → Word} {i : Instr} {s : State} (active : s.active = true)
    (entries : ∀ j : Byte, s.table.read j.toNat = some (T j)) (other : i ≠ .finish) :
    ∃ t, exec i s = .next t ∧ KeepsFold s t ∧
      ((∃ b, i = .feed b ∧ t.crc = foldByte T s.cfg s.crc b) ∨
        (∀ b, i ≠ .feed b) ∧ t.crc = s.crc) := by
  have rejected (code : ErrCode) : KeepsFold s (reject code s) := ⟨rfl, rfl, rfl, rfl, rfl⟩
  rcases instr_shapes i with rfl | rfl | rfl | ⟨b, rfl⟩ | ⟨⟨d, w⟩, arg, rfl⟩ | ⟨idx, value, rfl⟩ |
    ⟨count, rfl⟩
  · exact ⟨_, rfl, ⟨rfl, rfl, rfl, rfl, rfl⟩, .inr ⟨nofun, rfl⟩⟩
  · exact ⟨_, rfl, ⟨rfl, rfl, rfl, rfl, rfl⟩, .inr ⟨nofun, rfl⟩⟩
  · exact absurd rfl other
  · exact ⟨_, exec_feed_written active (entries _), ⟨rfl, rfl, rfl, rfl, rfl⟩, .inl ⟨b, rfl, rfl⟩⟩
  · refine ⟨_, exec_startOf_active _ arg active, rejected .sequence, .inr ⟨?_, rfl⟩⟩
    cases d <;> cases w <;> exact nofun
  · exact ⟨_, exec_twr_locked idx value active, rejected .locked, .inr ⟨nofun, rfl⟩⟩
  · exact ⟨_, exec_tlen_locked count active, rejected .locked, .inr ⟨nofun, rfl⟩⟩

/-- The same of any action of the host that does not end the fold. -/
theorem perform_in_fold {T : Byte → Word} {a : HostAction} {s : State} (active : s.active = true)
    (entries : ∀ j : Byte, s.table.read j.toNat = some (T j)) (goes_on : endsFold a = false) :
    ∃ t, perform a s = .next t ∧ KeepsFold s t ∧
      t.crc = foldBytes T s.cfg s.crc (fedBytes [a]) := by
  cases a with
  | read addr => exact ⟨_, rfl, ⟨rfl, rfl, rfl, rfl, rfl⟩, rfl⟩
  | reset => cases goes_on
  | command c =>
    have not_finish : decode c ≠ .row .finish := beq_eq_false_iff_ne.mp goes_on
    cases row : decode c with
    | illegal =>
      refine ⟨_, issue_illegal row s, ⟨rfl, rfl, rfl, rfl, rfl⟩, ?_⟩
      rw [fedBytes_of_not_feed (by simp [row])]
      rfl
    | row i =>
      obtain ⟨t, done, kept, ⟨b, rfl, fed⟩ | ⟨no_feed, same⟩⟩ :=
        exec_in_fold (i := i) active entries fun finish => not_finish (finish ▸ row)
      · refine ⟨t, (issue_row row s).trans done, kept, ?_⟩
        rw [fedBytes_of_feed row, fed]
        rfl
      · refine ⟨t, (issue_row row s).trans done, kept, ?_⟩
        rw [fedBytes_of_not_feed (by simpa [row] using no_feed), same]
        rfl

theorem step_in_fold {T : Byte → Word} {a : HostAction} {rest : List HostAction} {s : State}
    (taken : s.pending = a :: rest) (active : s.active = true)
    (entries : ∀ j : Byte, s.table.read j.toNat = some (T j)) (goes_on : endsFold a = false) :
    ∃ t, step s = .next t ∧ KeepsFold s t ∧ t.crc = foldBytes T s.cfg s.crc (fedBytes [a]) := by
  obtain ⟨t, done, kept, fed⟩ :=
    perform_in_fold (s := { s with pending := rest }) active entries goes_on
  exact ⟨t, (step_cons taken).trans done,
    ⟨kept.active, kept.cfg, kept.result, kept.tbllen, kept.table⟩, fed⟩

theorem run_in_fold {T : Byte → Word} (acts rest : List HostAction) :
    ∀ {s : State}, s.active = true → (∀ j : Byte, s.table.read j.toNat = some (T j)) →
      s.pending = acts ++ rest → (∀ a ∈ acts, endsFold a = false) →
      ∃ t, Host.Core.run core acts.length s = .next t ∧ KeepsFold s t ∧
        t.crc = foldBytes T s.cfg s.crc (fedBytes acts) := by
  induction acts with
  | nil => exact fun _ _ _ _ => ⟨_, rfl, ⟨rfl, rfl, rfl, rfl, rfl⟩, rfl⟩
  | cons a acts ih =>
    intro s active entries taken go_on
    obtain ⟨goes_on, go_on⟩ := List.forall_mem_cons.mp go_on
    obtain ⟨u, first, kept, fed⟩ := step_in_fold taken active entries goes_on
    have left : u.pending = acts ++ rest := by rw [step_pending first, taken]; rfl
    obtain ⟨t, later, kept_later, fed_later⟩ :=
      ih (kept.active.trans active) (by rw [kept.table]; exact entries) left go_on
    refine ⟨t, (run_next first _).trans later, kept.trans kept_later, ?_⟩
    rw [fed_later, fed, kept.cfg, fedBytes_cons a acts, foldBytes_append]

/-- Settles O33: by induction over the actions, each of which keeps the fold and feeds its own byte. -/
theorem foldDataIsTheFedBytes : Obligations.FoldDataIsTheFedBytes := by
  intro T acts rest s active entries pending go_on
  obtain ⟨t, done, kept, fed⟩ := run_in_fold acts rest active entries pending go_on
  refine ⟨t, done, fed, kept.active.trans active, kept.cfg, kept.result, kept.tbllen, kept.table, ?_⟩
  rw [run_pending _ done, pending, List.drop_left]

end Sys2Proof.Machine
end

section
/-! SUPPORT. The call of 00_scope.md R10: a whole fold over a written table is `fold_V`; the commands
that write a caller's table; and a fold that START rejects (60_exceptions.md R126). -/

namespace Sys2Proof.Machine

/-! ## A fold over a written table -/

/-- Over a written table no byte names an unwritten index, and each folds its entry. -/
theorem foldRam_written {m : Memory} {T : Byte → Word}
    (entries : ∀ j : Byte, m.read j.toNat = some (T j)) (v : Variant) (data : List Byte) :
    ∀ r : Word, foldRam m v r data = .ok (foldBytes T v r data) := by
  induction data with
  | nil => exact fun _ => rfl
  | cons b rest ih =>
    intro r
    rw [foldRam_cons_written (entries _), ih, foldBytes_cons]
    rfl

/-- Settles O34: the outcome of the commands over the table RAM, which is the fold over T. -/
theorem foldPublishesFoldV : Obligations.FoldPublishesFoldV := by
  intro T v arg data rest s loaded pending
  rw [run_foldCommands loaded.idle loaded.length pending, foldRam_written loaded.entries]
  refine congrArg Host.Outcome.next ?_
  rw [loaded.idle]
  rfl

/-! ## Writing a caller's table -/

/-- The table RAM with the given entries written at the indices from `first` on. -/
def loadFrom : Memory → Nat → List Word → Memory
  | m, _, [] => m
  | m, first, e :: rest => loadFrom (m.write first e) (first + 1) rest

theorem loadFrom_read_below (entries : List Word) :
    ∀ {m : Memory} {first i : Nat}, i < first → (loadFrom m first entries).read i = m.read i := by
  induction entries with
  | nil => exact fun _ => rfl
  | cons e rest ih =>
    intro m first i below
    rw [loadFrom, ih (by omega), memory_read_write_other _ _ (by omega)]

theorem loadFrom_read (entries : List Word) :
    ∀ {m : Memory} {first i : Nat}, i < entries.length →
      (loadFrom m first entries).read (first + i) = entries[i]? := by
  induction entries with
  | nil => exact fun inside => absurd inside (Nat.not_lt_zero _)
  | cons e rest ih =>
    intro m first i inside
    cases i with
    | zero => simp [loadFrom, loadFrom_read_below]
    | succ i =>
      rw [loadFrom, show first + (i + 1) = first + 1 + i by omega, List.getElem?_cons_succ]
      exact ih (Nat.lt_of_succ_lt_succ inside)

/-- The TWRs of a caller's entries are all accepted in IDLE. -/
theorem run_writeFrom (entries : List Word) (rest : List HostAction) :
    ∀ {first : Nat} {s : State}, first + entries.length ≤ 256 → s.active = false →
      s.pending = writeFrom first entries ++ rest →
      ∃ err, Host.Core.run core entries.length s =
        .next { s with table := loadFrom s.table first entries, err := err, pending := rest } := by
  induction entries with
  | nil =>
    intro first s _ _ pending
    have taken : s.pending = rest := pending
    exact ⟨s.err, by rw [← taken]; rfl⟩
  | cons e entries ih =>
    intro first s fits idle pending
    rw [List.length_cons] at fits
    have index : (BitVec.ofNat 8 first).toNat = first := by
      rw [BitVec.toNat_ofNat]
      omega
    have written := (step_send pending).trans (exec_twr_idle _ e idle)
    obtain ⟨err, done⟩ := ih (first := first + 1) (s := accept (writeEntry (BitVec.ofNat 8 first) e
      { s with pending := writeFrom (first + 1) entries ++ rest })) (by omega) idle rfl
    refine ⟨err, (run_next written _).trans (done.trans ?_)⟩
    rw [accept_table, writeEntry_table, index]
    rfl

/-- The state of an IDLE block once a caller's table is written and its entry count declared
(40_table_setup.md R82). -/
def tableSet (table : List Word) (rest : List HostAction) (s : State) : State :=
  { s with
    table := loadFrom s.table 0 (table.take Config.tableEntries)
    tbllen := BitVec.ofNat 64 table.length
    err := 0x0
    pending := rest }

/-- The commands of a call up to its START. -/
theorem run_tableSetup {table : List Word} {v : Variant} {arg : Word} {data : List Byte}
    {rest : List HostAction} {s : State} (idle : s.active = false)
    (pending : s.pending = foldCall table v arg data ++ rest) :
    Host.Core.run core (min table.length 256 + 1) s =
      .next (tableSet table (foldCommands v arg data ++ rest) s) := by
  have count : (table.take Config.tableEntries).length = min table.length 256 := by
    rw [List.length_take, Nat.min_comm, Config.tableEntries]
  rw [foldCall, List.append_assoc] at pending
  obtain ⟨err, written⟩ :=
    run_writeFrom _ _ (by rw [count, Nat.zero_add]; exact Nat.min_le_right _ _) idle pending
  rw [← count, run_add 1 written]
  refine run_next ((step_send ?_).trans (exec_tlen_idle _ ?_)) 0
  · rfl
  · exact idle

/-- Settles O35: the entries written are the caller's, so the fold over them is the one of O34. -/
theorem callWithAFullTableReturnsTheFold : Obligations.CallWithAFullTableReturnsTheFold := by
  intro table v arg data rest s full idle pending
  have setup := run_tableSetup idle pending
  have loaded : TableLoaded (fun i => table.getD i.toNat 0)
      (tableSet table (foldCommands v arg data ++ rest) s) := by
    refine ⟨idle, congrArg (BitVec.ofNat 64) full, fun i => ?_⟩
    have inside : i.toNat < table.length := full ▸ i.isLt
    have whole : table.take Config.tableEntries = table := List.take_of_length_le full.le
    have read := loadFrom_read table (m := s.table) (first := 0) inside
    rw [Nat.zero_add, List.getElem?_eq_getElem inside] at read
    rw [tableSet, whole, read, List.getD_eq_getElem _ _ inside]
  rw [full] at setup
  have folded := foldPublishesFoldV _ v arg data rest _ loaded rfl
  have done := (run_add _ setup).trans folded
  rw [show min 256 256 + 1 + (data.length + 2) = data.length + 259 by omega] at done
  exact ⟨_, done, rfl, rfl, rfl, idle, rfl⟩

/-! ## A fold that START rejects -/

/-- Out of a fold every FEED and the FINISH are rejected with SEQUENCE (60_exceptions.md R127). -/
theorem run_feedAll_finish_idle (data : List Byte) (rest : List HostAction) :
    ∀ {s : State}, s.active = false → s.pending = feedAll data ++ send .finish :: rest →
      Host.Core.run core (data.length + 1) s =
        .next (reject .sequence { s with pending := rest }) := by
  induction data with
  | nil =>
    intro s idle pending
    exact run_next ((step_send pending).trans (exec_finish_idle idle)) 0
  | cons b data ih =>
    intro s idle pending
    have rejected := (step_send (i := .feed b) pending).trans (exec_feed_idle b idle)
    rw [List.length_cons, run_next rejected]
    exact ih idle rfl

/-- Settles O36: the count declared is not 256, so START is rejected and the block stays IDLE. -/
theorem callWithAnotherLengthFoldsNothing : Obligations.CallWithAnotherLengthFoldsNothing := by
  intro table v arg data rest s other small idle pending
  have setup := run_tableSetup idle pending
  have wrong : BitVec.ofNat 64 table.length ≠ Config.requiredLength := by
    intro same
    have same := congrArg BitVec.toNat same
    rw [BitVec.toNat_ofNat, Nat.mod_eq_of_lt small] at same
    exact other same
  have taken : (tableSet table (foldCommands v arg data ++ rest) s).pending =
      send (startOf v arg) :: (feedAll data ++ send .finish :: rest) := by
    simp [tableSet, foldCommands]
  have started := (step_send taken).trans (exec_startOf_invalidTable v arg idle wrong)
  have rejected := (run_add 1 setup).trans (run_next started 0)
  have ended := ((run_add (data.length + 1 + 1) setup).trans (run_next started _)).trans
    (run_feedAll_finish_idle data rest idle rfl)
  rw [show min table.length 256 + 1 + (data.length + 1 + 1) =
    min table.length 256 + data.length + 3 by omega] at ended
  exact ⟨⟨_, rejected, rfl, rfl, idle⟩, ⟨_, ended, rfl, rfl, rfl, idle, rfl, rfl, rfl⟩⟩

end Sys2Proof.Machine
end

section
/-! SUPPORT. The encoder against the decoder (30_encoding.md R60, R66, R68): a command that decodes
comes from the one row that matches its CMD, and the words of what that row builds are its match bits,
the field's bits of CMD, and ARG or 0. -/

namespace Sys2Proof.Machine

/-! ## The row a command comes from -/

/-- A command that decodes is built by a row that accepts its CMD, and the same row answers for that
CMD under every ARG. -/
theorem decodeWith_row {rs : List Row} {cmd : BitVec 16} {x : Word} {i : Instr}
    (row : decodeWith rs ⟨cmd, x⟩ = .row i) :
    ∃ r ∈ rs, r.accepts cmd = true ∧ r.build cmd x = i ∧
      ∀ y, decodeWith rs ⟨cmd, y⟩ = .row (r.build cmd y) := by
  induction rs with
  | nil => cases row
  | cons r rest ih =>
    cases accepted : r.accepts cmd with
    | true =>
      have here (y : Word) : decodeWith (r :: rest) ⟨cmd, y⟩ = .row (r.build cmd y) := if_pos accepted
      exact ⟨r, List.mem_cons_self, accepted, Decoded.row.inj ((here x).symm.trans row), here⟩
    | false =>
      have later (y : Word) : decodeWith (r :: rest) ⟨cmd, y⟩ = decodeWith rest ⟨cmd, y⟩ :=
        if_neg (by simp [accepted])
      obtain ⟨q, mem, accepts, built, all⟩ := ih ((later x).symm.trans row)
      exact ⟨q, List.mem_cons_of_mem r mem, accepts, built, fun y => (later y).trans (all y)⟩

/-- The bits of CMD that a row with a byte field does not match are its low byte. -/
theorem and_low_mask (cmd : BitVec 16) : cmd &&& 0x00FF#16 = (lowByte cmd).setWidth 16 := by
  apply BitVec.eq_of_toNat_eq
  rw [BitVec.toNat_and, BitVec.toNat_setWidth, lowByte, field_toNat]
  have low : cmd.toNat &&& 0xFF = cmd.toNat % 2 ^ 8 := Nat.and_two_pow_sub_one_eq_mod _ 8
  change cmd.toNat &&& 0xFF = _
  omega

/-- The CMD the encoder writes for what a row builds. -/
theorem encode_build_cmd {r : Row} (mem : r ∈ rows) (cmd : BitVec 16) (arg : Word) :
    (encode (r.build cmd arg)).cmd = r.pattern ||| (cmd &&& ~~~r.mask) := by
  have exact_row (pattern : BitVec 16) : pattern = pattern ||| (cmd &&& ~~~0xFFFF#16) := by
    rw [show ~~~0xFFFF#16 = 0#16 by decide, BitVec.and_zero, BitVec.or_zero]
  have byte_row (pattern : BitVec 16) :
      pattern ||| (lowByte cmd).setWidth 16 = pattern ||| (cmd &&& ~~~0xFF00#16) := by
    rw [show ~~~0xFF00#16 = 0x00FF#16 by decide, and_low_mask]
  revert r
  simp only [rows, List.forall_mem_cons]
  exact ⟨exact_row _, byte_row _, exact_row _, exact_row _, exact_row _, exact_row _, exact_row _,
    exact_row _, exact_row _, exact_row _, exact_row _, exact_row _, exact_row _, byte_row _,
    exact_row _, exact_row _, nofun⟩

/-- The encoder writes back the CMD that a row accepted. -/
theorem encode_build_cmd_of_accepts {r : Row} (mem : r ∈ rows) {cmd : BitVec 16}
    (accepts : r.accepts cmd = true) (arg : Word) : (encode (r.build cmd arg)).cmd = cmd := by
  rw [encode_build_cmd mem, ← beq_iff_eq.mp accepts, ← BitVec.and_or_distrib_left, BitVec.or_not_self,
    BitVec.and_allOnes]

/-- The row has the OPC of TWR, TLEN or START, and ARG is the ARG of what it builds
(30_encoding.md R65). -/
def UsesArg (r : Row) : Prop :=
  r.pattern.extractLsb' 12 4 ∈ [0x1#4, 0x2#4, 0x3#4] ∧
    ∀ cmd arg, (encode (r.build cmd arg)).arg = arg

/-- What the row builds does not depend on ARG, and is written with ARG 0 (30_encoding.md R60). -/
def IgnoresArg (r : Row) : Prop :=
  ∀ cmd x y, r.build cmd x = r.build cmd y ∧ (encode (r.build cmd x)).arg = 0

theorem usesArg_or_ignoresArg {r : Row} (mem : r ∈ rows) : UsesArg r ∨ IgnoresArg r := by
  revert r
  simp only [rows, List.forall_mem_cons]
  refine ⟨.inr fun _ _ _ => ⟨rfl, rfl⟩, .inl ⟨?_, fun _ _ => rfl⟩, .inl ⟨?_, fun _ _ => rfl⟩,
    .inl ⟨?_, fun _ _ => rfl⟩, .inl ⟨?_, fun _ _ => rfl⟩, .inl ⟨?_, fun _ _ => rfl⟩,
    .inl ⟨?_, fun _ _ => rfl⟩, .inl ⟨?_, fun _ _ => rfl⟩, .inl ⟨?_, fun _ _ => rfl⟩,
    .inl ⟨?_, fun _ _ => rfl⟩, .inl ⟨?_, fun _ _ => rfl⟩, .inl ⟨?_, fun _ _ => rfl⟩,
    .inl ⟨?_, fun _ _ => rfl⟩, .inr fun _ _ _ => ⟨rfl, rfl⟩, .inr fun _ _ _ => ⟨rfl, rfl⟩,
    .inr fun _ _ _ => ⟨rfl, rfl⟩, nofun⟩
  all_goals decide

/-- Every row looks at all of OPC. -/
theorem opcode_of_accepts {r : Row} (mem : r ∈ rows) {cmd : BitVec 16}
    (accepts : r.accepts cmd = true) :
    cmd.extractLsb' 12 4 = r.pattern.extractLsb' 12 4 := by
  have whole : ∀ r ∈ rows, r.mask.extractLsb' 12 4 = BitVec.allOnes 4 := by decide
  rw [← beq_iff_eq.mp accepts, BitVec.extractLsb'_and, whole r mem, BitVec.and_allOnes]

/-! ## The obligations -/

/-- Settles O1: the row a command comes from writes back its CMD, and its ARG where it uses it. -/
theorem encoderAndDecoderAgree : Obligations.EncoderAndDecoderAgree := by
  refine ⟨decode_encode, fun ⟨cmd, x⟩ i row => ?_⟩
  obtain ⟨r, mem, accepts, rfl, all⟩ := decodeWith_row row
  refine ⟨encode_build_cmd_of_accepts mem accepts x, ?_⟩
  rcases usesArg_or_ignoresArg mem with ⟨-, uses⟩ | ignores
  · exact .inl (uses cmd x)
  · exact .inr ⟨(ignores cmd x x).2, fun y =>
      (all y).trans (congrArg Decoded.row (ignores cmd y x).1)⟩

/-- Settles O4: the row that answers under one ARG answers under every other, and an OPC of a command
that ignores ARG is none of those whose rows use it. -/
theorem decoderNeverLooksAtArg : Obligations.DecoderNeverLooksAtArg := by
  have same_illegal (cmd : BitVec 16) (x y : Word) (illegal : decode ⟨cmd, x⟩ = .illegal) :
      decode ⟨cmd, y⟩ = .illegal :=
    (decode_illegal_iff _).mpr ((decode_illegal_iff ⟨cmd, x⟩).mp illegal)
  refine ⟨fun cmd x y i row => ?_, same_illegal, fun cmd x y opc => ?_⟩
  · obtain ⟨r, mem, accepts, rfl, all⟩ := decodeWith_row row
    exact ⟨r.build cmd y, all y, by
      rw [encode_build_cmd_of_accepts mem accepts, encode_build_cmd_of_accepts mem accepts]⟩
  · cases row : decode ⟨cmd, x⟩ with
    | illegal => exact (same_illegal cmd x y row).symm
    | row i =>
      obtain ⟨r, mem, accepts, rfl, all⟩ := decodeWith_row row
      rcases usesArg_or_ignoresArg mem with ⟨uses_opc, -⟩ | ignores
      · rw [← opcode_of_accepts mem accepts] at uses_opc
        have apart : ∀ k : BitVec 4, k ∈ [0x0#4, 0x4#4, 0x5#4, 0x6#4] → k ∉ [0x1#4, 0x2#4, 0x3#4] := by
          decide
        exact absurd uses_opc (apart _ opc)
      · exact (congrArg Decoded.row (ignores cmd x y).1).trans (all y).symm

/-- Settles O5: the legal words are what the encoder writes, and the others match no row. -/
theorem exampleWordsDecode : Obligations.ExampleWordsDecode :=
  ⟨decode_encode (.twr 0x01 0x77073096), decode_encode (.tlen 256),
    decode_encode (.startR32 0xFFFFFFFF), decode_encode (.startN24 0xFFB704CE),
    decode_encode (.feed 0x31), decode_encode .finish, decode_encode .clrerr, by decide, by decide,
    by decide⟩

end Sys2Proof.Machine
end

section
/-! SUPPORT. The assembler (30_encoding.md R73, R74): what each operand check means, and the words of
the commands a line becomes. -/

namespace Sys2Proof.Machine

/-! ## The operand checks -/

theorem assemble_eq_none_iff (l : Source) : assemble l = none ↔ ¬ l.wellFormed = true := by
  cases accepted : l.wellFormed <;> simp [assemble, accepted]

theorem assemble_of_wellFormed {l : Source} (accepted : l.wellFormed = true) :
    assemble l = some (expand l) :=
  if_pos accepted

theorem byteInRange_iff (n : Nat) : byteInRange n = true ↔ n < 256 := decide_eq_true_iff

theorem valueInRange_iff (n : Nat) : valueInRange n = true ↔ n < 2 ^ 64 := decide_eq_true_iff

theorem all_byteInRange_iff (data : List Nat) :
    data.all byteInRange = true ↔ ∀ b ∈ data, b < 256 := by
  simp only [List.all_eq_true, byteInRange_iff]

theorem all_valueInRange_iff (entries : List Nat) :
    entries.all valueInRange = true ↔ ∀ e ∈ entries, e < 2 ^ 64 := by
  simp only [List.all_eq_true, valueInRange_iff]

theorem wellFormed_twr (idx value : Nat) :
    (Source.twr idx value).wellFormed = true ↔ idx < 256 ∧ value < 2 ^ 64 := by
  rw [Source.wellFormed, Bool.and_eq_true, byteInRange_iff, valueInRange_iff]

theorem wellFormed_word (cmd arg : Nat) :
    (Source.word cmd arg).wellFormed = true ↔ cmd < 2 ^ 16 ∧ arg < 2 ^ 64 := by
  rw [Source.wellFormed, Bool.and_eq_true, decide_eq_true_iff, valueInRange_iff]

theorem wellFormed_fold (v : Variant) (init : Nat) (data : List Nat) :
    (Source.fold v init data).wellFormed = true ↔ init < 2 ^ 64 ∧ ∀ b ∈ data, b < 256 := by
  rw [Source.wellFormed, Bool.and_eq_true, valueInRange_iff, all_byteInRange_iff]

theorem wellFormed_ldtable (entries : List Nat) :
    (Source.ldtable entries).wellFormed = true ↔
      entries.length = 256 ∧ ∀ e ∈ entries, e < 2 ^ 64 := by
  rw [Source.wellFormed, Bool.and_eq_true, beq_iff_eq, all_valueInRange_iff, Config.tableEntries]

/-! ## The words a line becomes -/

/-- A number in range keeps its value in a byte field of CMD. -/
theorem byte_field {n : Nat} (small : n < 256) :
    (BitVec.ofNat 8 n).setWidth 16 = BitVec.ofNat 16 n := by
  apply BitVec.eq_of_toNat_eq
  rw [BitVec.toNat_setWidth, BitVec.toNat_ofNat, BitVec.toNat_ofNat]
  omega

theorem send_twr {idx : Nat} (small : idx < 256) (value : Word) :
    send (.twr (BitVec.ofNat 8 idx) value) = .command ⟨0x1000 ||| BitVec.ofNat 16 idx, value⟩ := by
  rw [send, encode, byte_field small]
  rfl

theorem send_feed {b : Nat} (small : b < 256) :
    send (.feed (BitVec.ofNat 8 b)) = .command ⟨0x4000 ||| BitVec.ofNat 16 b, 0⟩ := by
  rw [send, encode, byte_field small]
  rfl

/-- The CMD of a START is its OPC and the CFG it latches (30_encoding.md R66). -/
theorem startCmd_eq (v : Variant) : startCmd v = 0x3000 ||| (cfgWord v).setWidth 16 := by
  obtain ⟨d, w⟩ := v
  cases d <;> cases w <;> decide

theorem send_startOf (v : Variant) (arg : Word) :
    send (startOf v arg) = .command ⟨0x3000 ||| (cfgWord v).setWidth 16, arg⟩ := by
  rw [send, encode_startOf, startCmd_eq]

theorem feedAll_bytes {data : List Nat} (small : ∀ b ∈ data, b < 256) :
    feedAll (data.map (BitVec.ofNat 8)) =
      data.map (fun b => .command ⟨0x4000 ||| BitVec.ofNat 16 b, 0⟩) := by
  rw [feedAll, List.map_map]
  exact List.map_congr_left fun b mem => send_feed (small b mem)

/-- The TWRs of a table, as a list over the indices. -/
theorem writeFrom_eq_map (entries : List Nat) :
    ∀ first : Nat, first + entries.length ≤ 256 →
      writeFrom first (entries.map (BitVec.ofNat 64)) =
        (List.range entries.length).map (fun i =>
          .command ⟨0x1000 ||| BitVec.ofNat 16 (first + i), BitVec.ofNat 64 (entries.getD i 0)⟩) := by
  induction entries with
  | nil => exact fun _ _ => rfl
  | cons e rest ih =>
    intro first fits
    rw [List.length_cons] at fits
    rw [List.map_cons, writeFrom, send_twr (by omega), ih (first + 1) (by omega), List.length_cons,
      List.range_succ_eq_map, List.map_cons, List.map_map]
    refine congrArg₂ List.cons rfl (List.map_congr_left fun i _ => ?_)
    rw [Function.comp_apply, Nat.succ_eq_add_one, List.getD_cons_succ, Nat.add_right_comm,
      Nat.add_assoc]

theorem expand_ldtable {entries : List Nat} (full : entries.length = 256) :
    expand (.ldtable entries) =
      (List.range 256).map (fun i =>
          .command ⟨0x1000 ||| BitVec.ofNat 16 i, BitVec.ofNat 64 (entries.getD i 0)⟩) ++
        [.command ⟨0x2000, 0x100⟩] := by
  rw [expand, writeFrom_eq_map entries 0 (by omega), full]
  simp only [Nat.zero_add]
  rfl

/-- `fold` is `start`, `feeds` and `finish` on one line (30_encoding.md R74). -/
theorem expand_fold (v : Variant) (init : Nat) (data : List Nat) :
    expand (.fold v init data) =
      expand (.start v init) ++ expand (.feeds data) ++ [.command ⟨0x5000, 0⟩] := rfl

/-- Settles O47: each refusal by its operand check, and each accepted line by its expansion. -/
theorem assemblerWritesTheEncodings : Obligations.AssemblerWritesTheEncodings := by
  refine ⟨?_, ?_, ?_, ?_, ?_, ?_, ?_, ?_, rfl, rfl, rfl, ?_, ?_, ?_, ?_, ?_, ?_, ?_, ?_, rfl, rfl,
    rfl, rfl⟩
  · exact fun idx value => (assemble_eq_none_iff _).trans (wellFormed_twr idx value).not
  · exact fun n => (assemble_eq_none_iff _).trans (valueInRange_iff n).not
  · exact fun v a => (assemble_eq_none_iff _).trans (valueInRange_iff a).not
  · exact fun b => (assemble_eq_none_iff _).trans (byteInRange_iff b).not
  · exact fun cmd arg => (assemble_eq_none_iff _).trans (wellFormed_word cmd arg).not
  · exact fun data => (assemble_eq_none_iff _).trans (all_byteInRange_iff data).not
  · exact fun v a data => (assemble_eq_none_iff _).trans (wellFormed_fold v a data).not
  · exact fun entries => (assemble_eq_none_iff _).trans (wellFormed_ldtable entries).not
  · intro idx value hidx hvalue
    rw [assemble_of_wellFormed ((wellFormed_twr idx value).mpr ⟨hidx, hvalue⟩), expand, send_twr hidx]
  · exact fun n small => assemble_of_wellFormed ((valueInRange_iff n).mpr small)
  · intro v a small
    rw [assemble_of_wellFormed (l := .start v a) ((valueInRange_iff a).mpr small), expand,
      send_startOf]
  · intro b small
    rw [assemble_of_wellFormed (l := .feed b) ((byteInRange_iff b).mpr small), expand,
      send_feed small]
  · exact fun cmd arg hcmd harg => assemble_of_wellFormed ((wellFormed_word cmd arg).mpr ⟨hcmd, harg⟩)
  · intro data small
    rw [assemble_of_wellFormed (l := .feeds data) ((all_byteInRange_iff data).mpr small), expand,
      feedAll_bytes small]
  · intro v a data ha small
    exact ⟨_, _, assemble_of_wellFormed (l := .start v a) ((valueInRange_iff a).mpr ha),
      assemble_of_wellFormed (l := .feeds data) ((all_byteInRange_iff data).mpr small),
      (assemble_of_wellFormed ((wellFormed_fold v a data).mpr ⟨ha, small⟩)).trans
        (congrArg some (expand_fold v a data))⟩
  · intro entries full small
    rw [assemble_of_wellFormed ((wellFormed_ldtable entries).mpr ⟨full, small⟩),
      expand_ldtable full]

end Sys2Proof.Machine
end
